-- ==== Sys2Proof/Word.lean ====
section
/-! DEFINITION. The word types of the core: every width the spec gives a value (00_scope.md R7, R11). -/

namespace Sys2Proof

/-- One byte: a memory cell, a V register, a timer, an 8-bit immediate NN (R7, R20, R39). -/
abbrev Byte := BitVec 8

/-- A 16-bit value: an opcode, I, PC, a stack slot (R7, R25, R26, R28, R60). -/
abbrev Word := BitVec 16

/-- A 12-bit address field NNN (R61, R63). -/
abbrev Addr := BitVec 12

/-- A 4-bit field that is a count, not a register number: the row count N of DXYN (R61, R63). -/
abbrev Nibble := BitVec 4

/-- A register number 0..15, selected by a 4-bit opcode nibble (R20, R61).
An index outside 0..15 cannot be written down, which is R22. -/
abbrev Reg := Fin 16

/-- VF, the flag register: general register 15 (R12, R23). -/
abbrev VF : Reg := 15

end Sys2Proof
end

