-- ==== Sys2Proof/Config.lean ====
section
/-! DEFINITION. What an implementation fixes: the numeric parameters (00_scope.md R7), the policy
parameters (R8) with their defaults, and the free values (R9), which are opaque constants. -/

namespace Sys2Proof

/-- NUM_KEYS: keys 0..15 (R7). No rule varies it: R37, R101 and R108 write the number (log 5). -/
abbrev numKeys : Nat := 16

/-- The numeric parameters of R7 that rules use by name. "Where a decision is a parameter, the model takes
the parameter as an argument" (92_eei_decisions.md). FONT_SIZE is the length of FONT_TABLE, see
`Policy.fontSize`. The widths and numbers of R7 that no rule names stand in the types (log 5). -/
structure Sizes where
  /-- MEM_SIZE: bytes of memory, addresses 0..MEM_SIZE-1 (R39). -/
  memSize    : Nat
  /-- PROG_BASE: program load offset and the first instruction's address (R26, R57). -/
  progBase   : Nat
  /-- FONT_BASE: address of the glyph table (R44). -/
  fontBase   : Nat
  /-- GLYPH_BYTES: bytes of one glyph (R44, R110). -/
  glyphBytes : Nat
  /-- STACK_DEPTH: return-address slots (R28, R29). -/
  stackDepth : Nat
  /-- FB_W: framebuffer width in pixels (R36); for 0 see log 14. -/
  fbW        : Nat
  /-- FB_H: framebuffer height in pixels (R36); for 0 see log 14. -/
  fbH        : Nat
  deriving DecidableEq, Repr

/-- The defaults of R7. -/
def Sizes.default : Sizes where
  memSize    := 4096
  progBase   := 0x200
  fontBase   := 0x000
  glyphBytes := 5
  stackDepth := 16
  fbW        := 64
  fbH        := 32

/-- VF_ALU_OPERAND (R8, R24): what a family-8 opcode does when it names VF as an operand. -/
inductive VfAluOperand where
  | fault | flagLast
  deriving DecidableEq, Repr

/-- SHIFT_SOURCE (R8, R94, R96): the register 8XY6 and 8XYE shift. -/
inductive ShiftSource where
  | vx | vy
  deriving DecidableEq, Repr

/-- STRICT_LOW_NIBBLE (R8, R65): what 5XYn and 9XYn with n other than 0 are. -/
inductive StrictLowNibble where
  | fault | ignore
  deriving DecidableEq, Repr

/-- FETCH_CHECK (R8, R27): which program counters a fetch refuses. -/
inductive FetchCheck where
  | strict | bounds
  deriving DecidableEq, Repr

/-- FONT_WRITE (R8, R41): whether a program may write the glyph table. -/
inductive FontWrite where
  | fault | allow
  deriving DecidableEq, Repr

/-- FONT_DIGIT_RANGE (R8, R110): what FX29 does with a digit above 15. -/
inductive FontDigitRange where
  | fault | mask
  deriving DecidableEq, Repr

/-- KEY_INDEX_RANGE (R8, R101): what EX9E and EXA1 do with a key index above 15. -/
inductive KeyIndexRange where
  | fault | mask
  deriving DecidableEq, Repr

/-- KEYWAIT_PICK (R8, R108): which of several keys down FX0A stores. -/
inductive KeywaitPick where
  | lowest | any
  deriving DecidableEq, Repr

/-- LDST_INCREMENT_I (R8, R112, R113): whether FX55 and FX65 advance I. -/
inductive LdstIncrementI where
  | none | xPlus1
  deriving DecidableEq, Repr

/-- The policy parameters of R8, "The model takes each one as an argument". -/
structure Policy where
  vfAluOperand    : VfAluOperand
  shiftSource     : ShiftSource
  strictLowNibble : StrictLowNibble
  fetchCheck      : FetchCheck
  fontWrite       : FontWrite
  fontDigitRange  : FontDigitRange
  keyIndexRange   : KeyIndexRange
  keywaitPick     : KeywaitPick
  ldstIncrementI  : LdstIncrementI
  fontTable       : List Byte
  deriving DecidableEq, Repr

/-- FONT_SIZE: bytes of the glyph table (R7); FONT_TABLE has exactly that many (R44, R45). -/
def Policy.fontSize (p : Policy) : Nat := p.fontTable.length

/-- The rows of the glyph table as R44 lists them, digit by digit. -/
def fontRows0To7 : List Byte :=
  [0xF0, 0x90, 0x90, 0x90, 0xF0] ++ [0x20, 0x60, 0x20, 0x20, 0x70] ++
  [0xF0, 0x10, 0xF0, 0x80, 0xF0] ++ [0xF0, 0x10, 0xF0, 0x10, 0xF0] ++
  [0x90, 0x90, 0xF0, 0x10, 0x10] ++ [0xF0, 0x80, 0xF0, 0x10, 0xF0] ++
  [0xF0, 0x80, 0xF0, 0x90, 0xF0] ++ [0xF0, 0x10, 0x20, 0x40, 0x40]

/-- The glyphs of the digits 8 to F (R44). -/
def fontRows8ToF : List Byte :=
  [0xF0, 0x90, 0xF0, 0x90, 0xF0] ++ [0xF0, 0x90, 0xF0, 0x10, 0xF0] ++
  [0xF0, 0x90, 0xF0, 0x90, 0x90] ++ [0xE0, 0x90, 0xE0, 0x90, 0xE0] ++
  [0xF0, 0x80, 0x80, 0x80, 0xF0] ++ [0xE0, 0x90, 0x90, 0x90, 0xE0] ++
  [0xF0, 0x80, 0xF0, 0x80, 0xF0] ++ [0xF0, 0x80, 0xF0, 0x80, 0x80]

/-- The default FONT_TABLE, 80 bytes (R7, R44, 92_eei_decisions.md D17). -/
def defaultFont : List Byte := fontRows0To7 ++ fontRows8ToF

/-- The defaults of R8. -/
def Policy.default : Policy where
  vfAluOperand    := .fault
  shiftSource     := .vx
  strictLowNibble := .fault
  fetchCheck      := .strict
  fontWrite       := .fault
  fontDigitRange  := .fault
  keyIndexRange   := .fault
  keywaitPick     := .lowest
  ldstIncrementI  := .none
  fontTable       := defaultFont

/-- Free value: the key vector of step number n, bit k set when key k is down (R9, R37; log 3). -/
opaque Config.keysAt : Nat → BitVec 16

/-- Free value: the random byte of step number n (R9, R126; log 3). -/
opaque Config.rnd8At : Nat → Byte

/-- Free value: how many times the host calls TickTimers before step number n (R9, R123; log 3). -/
opaque Config.ticksAt : Nat → Nat

/-- Free value: the key FX0A would take at step number n under KEYWAIT_PICK = ANY (R108; log 9). -/
opaque Config.keyPickAt : Nat → Fin 16

end Sys2Proof
end

