-- ==== Sys2Proof/Syntax.lean ====
section
/-! DEFINITION. The instructions: one constructor for each row of spec/opcode_table.json, with its
operand fields as 30_encoding.md R61 to R63 give them. X and Y are register numbers. -/

namespace Sys2Proof

/-- The 35 instructions of 00_scope.md R3, in the order of the opcode table. -/
inductive Instr where
  /-- 00E0, CLS (R73). -/
  | cls
  /-- 00EE, RET (R74). -/
  | ret
  /-- 0NNN other than 00E0 and 00EE, SYS (R75). -/
  | sys (nnn : Addr)
  /-- 1NNN, JP (R76). -/
  | jp (nnn : Addr)
  /-- 2NNN, CALL (R77). -/
  | call (nnn : Addr)
  /-- 3XNN, SE_IMM (R79). -/
  | seImm (x : Reg) (nn : Byte)
  /-- 4XNN, SNE_IMM (R80). -/
  | sneImm (x : Reg) (nn : Byte)
  /-- 5XY0, SE_REG (R81). -/
  | seReg (x y : Reg)
  /-- 6XNN, LD_IMM (R86). -/
  | ldImm (x : Reg) (nn : Byte)
  /-- 7XNN, ADD_IMM (R87). -/
  | addImm (x : Reg) (nn : Byte)
  /-- 8XY0, LD_REG (R88). -/
  | ldReg (x y : Reg)
  /-- 8XY1, OR (R89). -/
  | orReg (x y : Reg)
  /-- 8XY2, AND (R90). -/
  | andReg (x y : Reg)
  /-- 8XY3, XOR (R91). -/
  | xorReg (x y : Reg)
  /-- 8XY4, ADD_REG (R92). -/
  | addReg (x y : Reg)
  /-- 8XY5, SUB (R93). -/
  | sub (x y : Reg)
  /-- 8XY6, SHR (R94). Y is kept: it is read under SHIFT_SOURCE = VY. -/
  | shr (x y : Reg)
  /-- 8XY7, SUBN (R95). -/
  | subn (x y : Reg)
  /-- 8XYE, SHL (R96). Y is kept: it is read under SHIFT_SOURCE = VY. -/
  | shl (x y : Reg)
  /-- 9XY0, SNE_REG (R82). -/
  | sneReg (x y : Reg)
  /-- ANNN, LD_I (R97). -/
  | ldI (nnn : Addr)
  /-- BNNN, JP_V0 (R98). -/
  | jpV0 (nnn : Addr)
  /-- CXNN, RND (R99). -/
  | rnd (x : Reg) (nn : Byte)
  /-- DXYN, DRW (R100). -/
  | drw (x y : Reg) (n : Nibble)
  /-- EX9E, SKP (R103). -/
  | skp (x : Reg)
  /-- EXA1, SKNP (R104). -/
  | sknp (x : Reg)
  /-- FX07, LD_VX_DT (R105). -/
  | ldVxDt (x : Reg)
  /-- FX0A, LD_VX_K (R108). -/
  | ldVxK (x : Reg)
  /-- FX15, LD_DT_VX (R106). -/
  | ldDtVx (x : Reg)
  /-- FX18, LD_ST_VX (R107). -/
  | ldStVx (x : Reg)
  /-- FX1E, ADD_I_VX (R109). -/
  | addIVx (x : Reg)
  /-- FX29, LD_F_VX (R110). -/
  | ldFVx (x : Reg)
  /-- FX33, LD_B_VX (R111). -/
  | ldBVx (x : Reg)
  /-- FX55, LD_MEM_VX (R112). -/
  | ldMemVx (x : Reg)
  /-- FX65, LD_VX_MEM (R113). -/
  | ldVxMem (x : Reg)
  deriving DecidableEq, Repr

end Sys2Proof
end

