-- ==== Sys2Proof/Decode.lean ====
section
/-! DEFINITION. The decoder (30_encoding.md R58, R61, R64 to R67), total on every word and rejecting by
name, and after it the encoder, written from the formats of R62 and the opcode map of R64. -/

namespace Sys2Proof

/-- Why a word decodes to no instruction (R66). The VF-operand check of R65 stands in the meanings of
family 8 (Machine/Operands.lean, log 6), so the decoder rejects a word for one reason only. -/
inductive DecodeError where
  /-- UnknownOpcode(op): the word matches no line of R65. Raised by the step's decode. Safe. -/
  | unknownOpcode (op : Word)
  deriving DecidableEq, Repr

/-- The register number a 4-bit field holds (R61). -/
def regOfBits (b : Nibble) : Reg := ⟨b.toNat, b.isLt⟩

/-- The 4-bit field of a register number (R61). -/
def bitsOfReg (x : Reg) : Nibble := BitVec.ofNat 4 x.val

/-- F, op[15:12] (R61). -/
def opF (op : Word) : Nibble := op.extractLsb' 12 4
/-- X, op[11:8], as a register number (R61). -/
def opX (op : Word) : Reg := regOfBits (op.extractLsb' 8 4)
/-- Y, op[7:4], as a register number (R61). -/
def opY (op : Word) : Reg := regOfBits (op.extractLsb' 4 4)
/-- N, op[3:0] (R61). -/
def opN (op : Word) : Nibble := op.extractLsb' 0 4
/-- NN, op[7:0] (R61). -/
def opNN (op : Word) : Byte := op.extractLsb' 0 8
/-- NNN, op[11:0] (R61). -/
def opNNN (op : Word) : Addr := op.extractLsb' 0 12

/-- Family 0 (R65): the two exact words are tested before the SYS catch-all. -/
def decodeFamily0 (op : Word) : Instr :=
  if op = 0x00E0#16 then .cls else if op = 0x00EE#16 then .ret else .sys (opNNN op)

/-- Family 8 (R65): the operation the low nibble selects. -/
def decodeFamily8 (op : Word) : Option Instr :=
  match (opN op).toNat with
  | 0x0 => some (.ldReg (opX op) (opY op))
  | 0x1 => some (.orReg (opX op) (opY op))
  | 0x2 => some (.andReg (opX op) (opY op))
  | 0x3 => some (.xorReg (opX op) (opY op))
  | 0x4 => some (.addReg (opX op) (opY op))
  | 0x5 => some (.sub (opX op) (opY op))
  | 0x6 => some (.shr (opX op) (opY op))
  | 0x7 => some (.subn (opX op) (opY op))
  | 0xE => some (.shl (opX op) (opY op))
  | _ => none

/-- Family E (R65): the test the low byte selects. -/
def decodeFamilyE (op : Word) : Option Instr :=
  match (opNN op).toNat with
  | 0x9E => some (.skp (opX op))
  | 0xA1 => some (.sknp (opX op))
  | _ => none

/-- Family F (R65): the operation the low byte selects. -/
def decodeFamilyF (op : Word) : Option Instr :=
  match (opNN op).toNat with
  | 0x07 => some (.ldVxDt (opX op))
  | 0x0A => some (.ldVxK (opX op))
  | 0x15 => some (.ldDtVx (opX op))
  | 0x18 => some (.ldStVx (opX op))
  | 0x1E => some (.addIVx (opX op))
  | 0x29 => some (.ldFVx (opX op))
  | 0x33 => some (.ldBVx (opX op))
  | 0x55 => some (.ldMemVx (opX op))
  | 0x65 => some (.ldVxMem (opX op))
  | _ => none

/-- Families 5 and 9 accept a nonzero low nibble only under STRICT_LOW_NIBBLE = IGNORE (R65). -/
def lowNibbleOk (p : Policy) (op : Word) : Bool :=
  decide (opN op = 0#4) || decide (p.strictLowNibble = .ignore)

/-- The case distinction of R65 on the family nibble; none is "otherwise raise UnknownOpcode". -/
def decodeFamily (p : Policy) (op : Word) : Option Instr :=
  match (opF op).toNat with
  | 0x0 => some (decodeFamily0 op)
  | 0x1 => some (.jp (opNNN op))
  | 0x2 => some (.call (opNNN op))
  | 0x3 => some (.seImm (opX op) (opNN op))
  | 0x4 => some (.sneImm (opX op) (opNN op))
  | 0x5 => if lowNibbleOk p op then some (.seReg (opX op) (opY op)) else none
  | 0x6 => some (.ldImm (opX op) (opNN op))
  | 0x7 => some (.addImm (opX op) (opNN op))
  | 0x8 => decodeFamily8 op
  | 0x9 => if lowNibbleOk p op then some (.sneReg (opX op) (opY op)) else none
  | 0xA => some (.ldI (opNNN op))
  | 0xB => some (.jpV0 (opNNN op))
  | 0xC => some (.rnd (opX op) (opNN op))
  | 0xD => some (.drw (opX op) (opY op) (opN op))
  | 0xE => decodeFamilyE op
  | 0xF => decodeFamilyF op
  | _ => none

/-- Decode (R65), but for the VF-operand check (log 6): "Decode reads no state except the policy
parameters." -/
def decode (p : Policy) (op : Word) : Except DecodeError Instr :=
  match decodeFamily p op with
  | some i => .ok i
  | none => .error (.unknownOpcode op)

/-- Big-endian: the byte at the lower address is bits 15:8 (R46, R58). "`a ++ b` on two bytes is
`(a << 8) | b`" (R11). -/
def wordOfBytes (hi lo : Byte) : Word := hi.zeroExtend 16 <<< 8 ||| lo.zeroExtend 16

/-- The byte of an opcode word stored at the lower address (R46). -/
def hiByte (op : Word) : Byte := op.extractLsb' 8 8
/-- The byte of an opcode word stored at the higher address (R46). -/
def loByte (op : Word) : Byte := op.extractLsb' 0 8

/-- Format A, `FFFF AAAA AAAA AAAA` (R62). -/
def fmtA (f : Nibble) (nnn : Addr) : Word := f.zeroExtend 16 <<< 12 ||| nnn.zeroExtend 16
/-- Format XI, `FFFF XXXX IIII IIII`, and format XS, whose sub-opcode fills the same 8 bits (R62). -/
def fmtXI (f : Nibble) (x : Reg) (nn : Byte) : Word :=
  f.zeroExtend 16 <<< 12 ||| (bitsOfReg x).zeroExtend 16 <<< 8 ||| nn.zeroExtend 16
/-- Formats XYS and XYN, `FFFF XXXX YYYY SSSS` (R62). -/
def fmtXYN (f : Nibble) (x y : Reg) (n : Nibble) : Word :=
  f.zeroExtend 16 <<< 12 ||| (bitsOfReg x).zeroExtend 16 <<< 8 |||
    (bitsOfReg y).zeroExtend 16 <<< 4 ||| n.zeroExtend 16

/-- The word of an instruction (R62, R64). 5XY0 and 9XY0 are written with low nibble 0. -/
def encode : Instr → Word
  | .cls => 0x00E0#16
  | .ret => 0x00EE#16
  | .sys nnn => fmtA 0x0#4 nnn
  | .jp nnn => fmtA 0x1#4 nnn
  | .call nnn => fmtA 0x2#4 nnn
  | .seImm x nn => fmtXI 0x3#4 x nn
  | .sneImm x nn => fmtXI 0x4#4 x nn
  | .seReg x y => fmtXYN 0x5#4 x y 0x0#4
  | .ldImm x nn => fmtXI 0x6#4 x nn
  | .addImm x nn => fmtXI 0x7#4 x nn
  | .ldReg x y => fmtXYN 0x8#4 x y 0x0#4
  | .orReg x y => fmtXYN 0x8#4 x y 0x1#4
  | .andReg x y => fmtXYN 0x8#4 x y 0x2#4
  | .xorReg x y => fmtXYN 0x8#4 x y 0x3#4
  | .addReg x y => fmtXYN 0x8#4 x y 0x4#4
  | .sub x y => fmtXYN 0x8#4 x y 0x5#4
  | .shr x y => fmtXYN 0x8#4 x y 0x6#4
  | .subn x y => fmtXYN 0x8#4 x y 0x7#4
  | .shl x y => fmtXYN 0x8#4 x y 0xE#4
  | .sneReg x y => fmtXYN 0x9#4 x y 0x0#4
  | .ldI nnn => fmtA 0xA#4 nnn
  | .jpV0 nnn => fmtA 0xB#4 nnn
  | .rnd x nn => fmtXI 0xC#4 x nn
  | .drw x y n => fmtXYN 0xD#4 x y n
  | .skp x => fmtXI 0xE#4 x 0x9E#8
  | .sknp x => fmtXI 0xE#4 x 0xA1#8
  | .ldVxDt x => fmtXI 0xF#4 x 0x07#8
  | .ldVxK x => fmtXI 0xF#4 x 0x0A#8
  | .ldDtVx x => fmtXI 0xF#4 x 0x15#8
  | .ldStVx x => fmtXI 0xF#4 x 0x18#8
  | .addIVx x => fmtXI 0xF#4 x 0x1E#8
  | .ldFVx x => fmtXI 0xF#4 x 0x29#8
  | .ldBVx x => fmtXI 0xF#4 x 0x33#8
  | .ldMemVx x => fmtXI 0xF#4 x 0x55#8
  | .ldVxMem x => fmtXI 0xF#4 x 0x65#8

/-- The opcode word that the host's numbering of an opcode-table row stands for: bit 0 is the least
significant bit of the one word, and every bit at or above nbits is 0. -/
def tableWord (nbits w : Nat) : Word := BitVec.ofNat 16 (w % 2 ^ nbits)

/-- What the decoder reads, under the default policy, from the two bytes the hardware stores for a
word of the opcode table. Every instruction is exactly one 16-bit word (R60), so a longer one is none. -/
def decodeTableWord (nbits w : Nat) : Option Instr :=
  if 16 < nbits then none
  else
    let op := tableWord nbits w
    match decode .default (wordOfBytes (hiByte op) (loByte op)) with
    | .ok i => some i
    | .error _ => none

end Sys2Proof
end

