-- ==== Sys2Proof/Machine/State.lean ====
section
/-! DEFINITION. The state of the core as plain data (10_state.md), the halt record (R33, R114), the
outcomes of a step and the state after reset (R38). -/

namespace Sys2Proof.Machine

/-- The subkinds of OutOfBoundsAccess (60_exceptions.md R114). -/
inductive OobSubkind where
  /-- FETCH: every step's fetch (R58). -/
  | fetch
  /-- READ: DXYN, FX65 (R40). -/
  | read
  /-- WRITE: FX33, FX55 (R41). -/
  | write
  /-- FONT_WRITE: FX33, FX55 under FONT_WRITE = FAULT (R41). -/
  | fontWrite
  /-- REGISTER: family 8 naming VF under VF_ALU_OPERAND = FAULT (R24). -/
  | register
  /-- KEY_INDEX: EX9E, EXA1 with V[X] > 15 under KEY_INDEX_RANGE = FAULT (R101). -/
  | keyIndex
  /-- FONT_DIGIT: FX29 with V[X] > 15 under FONT_DIGIT_RANGE = FAULT (R110). -/
  | fontDigit
  deriving DecidableEq, Repr

/-- The fault kinds of R114; only OutOfBoundsAccess has a subkind. -/
inductive FaultKind where
  | stackOverflow
  | stackUnderflow
  | outOfBoundsAccess (sub : OobSubkind)
  | unknownOpcode
  deriving DecidableEq, Repr

/-- FaultRecord {kind, subkind, pc, opcode, info} (R33); the subkind stands in the kind. -/
structure FaultRecord where
  kind   : FaultKind
  /-- pc0, the address of the faulting instruction. -/
  pc     : Word
  /-- The raw opcode, absent for a fetch fault. -/
  opcode : Option Word
  /-- The faulting address or operand value, where the kind has one (log 8). An address I + k is
  unbounded (R42), so it is a number and not a word. -/
  info   : Option Nat
  deriving DecidableEq, Repr

/-- What one call of Step returns (R68): Done(redraw), Stall or Fault(record). -/
inductive StepResult where
  | done (redraw : Bool)
  | stall
  | fault (r : FaultRecord)
  deriving DecidableEq, Repr

/-- The free inputs of one step (00_scope.md R9; log 3). -/
structure Inputs where
  /-- The key vector: bit k is set when key k is down (R37). -/
  keys    : BitVec 16
  /-- The random byte of this step (R126). -/
  rnd8    : Byte
  /-- How many times the host calls TickTimers before this step (R123). -/
  ticks   : Nat
  /-- The key FX0A would take under KEYWAIT_PICK = ANY, if it is down (R108; log 9). -/
  keyPick : Fin 16
  deriving DecidableEq, Repr

/-- The inputs of step number n: free values, under no law (R9, R126). -/
def Inputs.drawn (n : Nat) : Inputs where
  keys    := Config.keysAt n
  rnd8    := Config.rnd8At n
  ticks   := Config.ticksAt n
  keyPick := Config.keyPickAt n

/-- Memory (20_memory.md R39): the bytes that differ from the reset contents, by rising address. -/
abbrev Memory := List Host.Cell

/-- The framebuffer (R36): the pixels (x, y) that are 1, row by row and in each row from left to right
(log 10). So one type holds the bits of every FB_W and FB_H. -/
abbrev Framebuffer := List (Nat × Nat)

/-- The core's state (10_state.md, CoreState), the framebuffer a model carries (R36), and the model's
own fields result, inputs, draws, sizes and policy (log 2, log 3, log 4). -/
structure State where
  /-- V0..VF (R20). -/
  v      : Vector Byte 16
  /-- I, the index register (R25). -/
  index  : Word
  /-- PC (R26). -/
  pc     : Word
  /-- S[0]..S[STACK_DEPTH - 1], the call-stack slots (R28). -/
  stack  : List Word
  /-- SP in 0..STACK_DEPTH, the number of slots in use (R28; log 13). -/
  sp     : Nat
  /-- DT, the delay timer (R31). -/
  dt     : Byte
  /-- ST, the sound timer (R31). -/
  st     : Byte
  /-- mem (R39). -/
  mem    : Memory
  /-- The halt record (R33). -/
  fault  : Option FaultRecord
  /-- FB (R36). -/
  fb     : Framebuffer
  /-- What the last step returned; none before the first step (R34, R68; log 2). -/
  result : Option StepResult
  /-- The inputs of the coming step (R9; log 3). -/
  inputs : Inputs
  /-- The number of the next draw of inputs (log 3). -/
  draws  : Nat
  /-- The numeric parameters (R7; log 4). -/
  sizes  : Sizes
  /-- The policy parameters (R8; log 4). -/
  policy : Policy
  deriving DecidableEq, Repr

/-- Why a step has no next state. -/
inductive Fault where
  /-- The core is halted by the recorded fault: "While fault != none, Step has no transition" (R116).
  Raised by `step` alone, never by a meaning. Safe: it is the spec's own final fault state. -/
  | halted (r : FaultRecord)
  deriving DecidableEq, Repr

/-- Why the model gives an instruction no meaning. -/
inductive Refusal where
  /-- The instruction of this mnemonic has no meaning in the model yet. Raised by an arm of `exec`
  alone; no arm does so in this model. Safe. -/
  | notModelled (mnemonic : String)
  deriving DecidableEq, Repr

/-- The state after Reset under given parameters (R38, R131). Nothing is listed in memory, so every byte reads
as its reset byte (R45). -/
def State.resetWith (z : Sizes) (p : Policy) : State where
  v      := Vector.replicate 16 0
  index  := 0
  pc     := BitVec.ofNat 16 z.progBase
  stack  := List.replicate z.stackDepth 0
  sp     := 0
  dt     := 0
  st     := 0
  mem    := []
  fault  := none
  fb     := []
  result := none
  inputs := Inputs.drawn 0
  draws  := 1
  sizes  := z
  policy := p

/-- The state after Reset under the default parameters (R7, R8, R38, R131). -/
def State.reset : State := State.resetWith .default .default

end Sys2Proof.Machine
end

