-- ==== Sys2Proof/Machine/Ops.lean ====
section
/-! DEFINITION. The named operations over memory, registers, the call stack, the timers and the ports
(10_state.md, 20_memory.md, 60_exceptions.md), fetching, taking a fault, and the ends of a step. -/

namespace Sys2Proof.Machine

/-! ### Memory -/

/-- What an unlisted address reads as: the reset contents of R45, FONT_TABLE in the glyph range and 0
everywhere else. -/
def resetByte (z : Sizes) (p : Policy) (a : Nat) : Byte :=
  if z.fontBase ≤ a then p.fontTable.getD (a - z.fontBase) 0 else 0

/-- The byte at an address (R39), where unlisted ones read as `init` says. -/
def Memory.read (init : Nat → Byte) : Memory → Nat → Byte
  | [], a => init a
  | c :: m, a => if c.1 = a then c.2 else Memory.read init m a

/-- A cell put in its place by rising address. -/
def insertCell (c : Host.Cell) : Memory → Memory
  | [] => [c]
  | d :: m => if c.1 < d.1 then c :: d :: m else d :: insertCell c m

/-- The write of one byte, which keeps the canonical form: the old entry goes, and a new one comes
unless the byte is what the unlisted address reads as. -/
def Memory.write (init : Nat → Byte) (m : Memory) (a : Nat) (b : Byte) : Memory :=
  let rest := m.filter fun c => decide (c.1 ≠ a)
  if b = init a then rest else insertCell (a, b) rest

/-- The canonical form: addresses strictly rising and below MEM_SIZE, no entry equal to what its
unlisted address reads as. -/
abbrev Memory.wf (memSize : Nat) (init : Nat → Byte) (m : Memory) : Prop :=
  m.Pairwise (fun c d => c.1 < d.1) ∧ ∀ c ∈ m, c.1 < memSize ∧ c.2 ≠ init c.1

/-- mem[a] (R12): the moving half of MemRead (R40). -/
def State.byteAt (s : State) (a : Nat) : Byte := Memory.read (resetByte s.sizes s.policy) s.mem a

/-- mem[a] <- b: the moving half of MemWrite (R41). -/
def State.storeByte (s : State) (a : Nat) (b : Byte) : State :=
  { s with mem := Memory.write (resetByte s.sizes s.policy) s.mem a b }

/-- Bytes stored at rising addresses, one MemWrite each (R48). -/
def State.storeBytes (s : State) (a : Nat) : List Byte → State
  | [] => s
  | b :: bs => (s.storeByte a b).storeBytes (a + 1) bs

/-- n bytes read at rising addresses, one MemRead each (R48). -/
def State.loadBytes (s : State) (a n : Nat) : List Byte :=
  (List.range n).map fun k => s.byteAt (a + k)

/-- CheckRead (R102): what MemRead (R40) would raise at an address. -/
def readCheck (z : Sizes) (a : Nat) : Option OobSubkind :=
  if z.memSize ≤ a then some .read else none

/-- CheckWrite (R102): what MemWrite (R41) would raise at an address, WRITE before FONT_WRITE (R117). -/
def writeCheck (z : Sizes) (p : Policy) (a : Nat) : Option OobSubkind :=
  if z.memSize ≤ a then some .write
  else if p.fontWrite = .fault ∧ z.fontBase ≤ a ∧ a < z.fontBase + p.fontSize then some .fontWrite
  else none

/-- The first of the addresses base, base + 1, ..., base + n - 1 that a check refuses: "Addresses are
checked in increasing order, so the fault reports the lowest failing address" (R102). -/
def firstFailing (check : Nat → Option OobSubkind) (base n : Nat) : Option (OobSubkind × Nat) :=
  (List.range n).findSome? fun k => (check (base + k)).map fun sub => (sub, base + k)

/-! ### Registers, skips, the call stack -/

/-- V[x] (R12, R20). No register is hardwired. -/
def State.getV (s : State) (x : Reg) : Byte := s.v[x.val]

/-- V[x] <- b (R12, R20). -/
def State.setV (s : State) (x : Reg) (b : Byte) : State := { s with v := s.v.set x.val b }

/-- A skip: PC <- (PC + 2) mod 2^16 when the condition holds, and nothing more (R71). -/
def State.skipIf (s : State) (cond : Bool) : State :=
  if cond then { s with pc := s.pc + 2 } else s

/-- Push(a) (R29); none is StackOverflow. -/
def State.push (s : State) (a : Word) : Option State :=
  if s.sp < s.sizes.stackDepth then some { s with stack := s.stack.set s.sp a, sp := s.sp + 1 }
  else none

/-- Pop() (R30), the value and the state after it; none is StackUnderflow. The slot is not cleared. -/
def State.pop (s : State) : Option (Word × State) :=
  if s.sp = 0 then none else some (s.stack.getD (s.sp - 1) 0, { s with sp := s.sp - 1 })

/-! ### Timers -/

/-- One timer after one TickTimers: "if DT > 0 then DT <- DT - 1" (R123). -/
def tickOnce (t : Byte) : Byte := if t = 0 then t else t - 1

/-- TickTimers() (R123), a host operation. -/
def State.tickTimers (s : State) : State := { s with dt := tickOnce s.dt, st := tickOnce s.st }

/-- One timer after n calls of TickTimers, in one step: it stops at 0. -/
def tickBy (n : Nat) (t : Byte) : Byte := BitVec.ofNat 8 (t.toNat - n)

/-- The host's ticks before this step, as many as the step's inputs say (R122, R123; log 3). -/
def State.applyTicks (s : State) : State :=
  { s with dt := tickBy s.inputs.ticks s.dt, st := tickBy s.inputs.ticks s.st }

/-! ### Ports -/

/-- FB[x][y] (R36). -/
def pixelAt (fb : Framebuffer) (x y : Nat) : Bool := decide ((x, y) ∈ fb)

/-- FB[x][y] as the host and the statements read it (R36, R122). -/
def State.pixel (s : State) (x y : Nat) : Bool := pixelAt s.fb x y

/-- The order of the pixels: row by row, in each row from left to right. -/
abbrev pixelBefore (p q : Nat × Nat) : Prop := p.2 < q.2 ∨ (p.2 = q.2 ∧ p.1 < q.1)

/-- A pixel put in its place. -/
def insertPixel (p : Nat × Nat) : Framebuffer → Framebuffer
  | [] => [p]
  | q :: fb => if pixelBefore p q then p :: q :: fb else q :: insertPixel p fb

/-- The canonical form: each pixel that is 1 once, in order, and inside FB_W x FB_H. -/
abbrev Framebuffer.wf (z : Sizes) (fb : Framebuffer) : Prop :=
  fb.Pairwise pixelBefore ∧ ∀ p ∈ fb, p.1 < z.fbW ∧ p.2 < z.fbH

/-- FB[x][y] with the pixel inverted: the write of SetPixel (R124). -/
def togglePixel (fb : Framebuffer) (x y : Nat) : Framebuffer :=
  if (x, y) ∈ fb then fb.filter fun p => decide (p ≠ (x, y)) else insertPixel (x, y) fb

/-- SetPixel(x, y) (R124): the framebuffer after it, and whether the pixel was 1. -/
def setPixel (fb : Framebuffer) (x y : Nat) : Framebuffer × Bool :=
  (togglePixel fb x y, pixelAt fb x y)

/-- ClearFB() (R124). -/
def clearFB : Framebuffer := []

/-- IsKeyDown(k) (R125): the same value for every call within one step. -/
def State.isKeyDown (s : State) (k : Nat) : Bool := s.inputs.keys.getLsbD k

/-! ### Fetching -/

/-- The FETCH check (R27, R58): whether a fetch at this address is refused. `pc0 > MEM_SIZE - 2` is
over the integers, for every MEM_SIZE. -/
def fetchRefused (z : Sizes) (p : Policy) (pc0 : Nat) : Bool :=
  (decide (p.fetchCheck = .strict) && (decide (pc0 % 2 = 1) || decide (pc0 < z.progBase))) ||
    decide (z.memSize < pc0 + 2)

/-- Fetch(pc0) (R58): the two bytes at PC and PC + 1, big-endian; none is OutOfBoundsAccess(FETCH). -/
def State.fetch (s : State) : Option Word :=
  if fetchRefused s.sizes s.policy s.pc.toNat then none
  else some (wordOfBytes (s.byteAt s.pc.toNat) (s.byteAt (s.pc.toNat + 1)))

/-- The fetch's advance, PC <- (pc0 + 2) mod 2^16, before the instruction executes (R59). -/
def State.advance (s : State) : State := { s with pc := s.pc + 2 }

/-! ### Taking a fault, and the ends of a step -/

/-- The numeric code of a fault kind (R114), "the spec's own". -/
def FaultKind.code : FaultKind → Nat
  | .stackOverflow => 1
  | .stackUnderflow => 2
  | .outOfBoundsAccess _ => 3
  | .unknownOpcode => 4

/-- Fault entry (R115): the halt record is set, the pc is the faulting instruction's again, and nothing
else changes. There is no handler, no vector and no saved-state area, and the ISA has no return from a
fault (R118): only the host's Reset leaves the halted state (`State.hostReset`). -/
def State.takeFault (s : State) (r : FaultRecord) : State :=
  { s with pc := r.pc, fault := some r, result := some (.fault r) }

/-- raise F(info) inside an instruction (R68, R115): applied to the state the instruction was given, so
that its partial changes are discarded. There pc0 = PC - 2 (R14), and op is the instruction's word. -/
def raise (op : Word) (kind : FaultKind) (info : Option Nat) (s : State) :
    Host.Outcome State Fault Refusal :=
  .next (s.takeFault { kind := kind, pc := s.pc - 2, opcode := some op, info := info })

/-- An OutOfBoundsAccess at the first failing address of an instruction's accesses (R102, R114). -/
def raiseAt (op : Word) (e : OobSubkind × Nat) (s : State) : Host.Outcome State Fault Refusal :=
  raise op (.outOfBoundsAccess e.1) (some e.2) s

/-- The state whose step returned Done(redraw) (R34, R68). -/
def State.completed (s : State) (redraw : Bool) : State :=
  { s with result := some (.done redraw) }

/-- The end of a completed step: Done(redraw) (R34, R68). -/
def finish (redraw : Bool) (s : State) : Host.Outcome State Fault Refusal :=
  .next (s.completed redraw)

/-- A stall (R69): PC is pc0 again and nothing else is written; the step returns Stall. -/
def State.stalled (s : State) : State := { s with pc := s.pc - 2, result := some .stall }

/-- Between two steps the environment chooses the next step's inputs (R9, R122; log 3). -/
def State.drawInputs (s : State) : State :=
  { s with inputs := Inputs.drawn s.draws, draws := s.draws + 1 }

end Sys2Proof.Machine
end

