-- ==== Sys2Proof/Machine/Flags.lean ====
section
/-! DEFINITION. The flag computations (41_alu.md R83 to R85, 42_index_jump_random_draw.md R100), each 0
or 1, and the one way a family-8 result and its flag are written. -/

namespace Sys2Proof.Machine

/-- A flag value (R83): "Every flag value written to VF is 0 or 1". -/
def flagByte (b : Bool) : Byte := if b then 1 else 0

/-- ADD's carry-out: 1 if the unsigned sum is above 255 (R85, R92). -/
def carryOut (a b : Byte) : Byte := flagByte (decide (255 < a.toNat + b.toNat))

/-- NOT-borrow of minuend - subtrahend: 1 if minuend is at least subtrahend (R85, R93, R95). -/
def notBorrow (minuend subtrahend : Byte) : Byte :=
  flagByte (decide (subtrahend.toNat ≤ minuend.toNat))

/-- The bit SHR shifts out, bit 0 (R94). -/
def shrOut (src : Byte) : Byte := flagByte (src.getLsbD 0)

/-- The bit SHL shifts out of the top, bit 7 (R96). -/
def shlOut (src : Byte) : Byte := flagByte (src.getLsbD 7)

/-- V[X] <- result, and then VF <- flag (R84): where X is VF, VF ends holding the flag. -/
def State.setResultFlag (s : State) (x : Reg) (result flag : Byte) : State :=
  (s.setV x result).setV VF flag

end Sys2Proof.Machine
end

