-- ==== Sys2Proof/Machine/Operands.lean ====
section
/-! DEFINITION. The operand forms: the VF-operand check of family 8, the shift source, the address in I,
the key index, the glyph digit, the key-wait choice and the decimal digits. -/

namespace Sys2Proof.Machine

/-- The VF-operand check (R24, R65): under VF_ALU_OPERAND = FAULT a family-8 opcode may name VF neither
as X nor, where Y is read, as Y. -/
def vfOperandRefused (p : Policy) (readsY : Bool) (x y : Reg) : Bool :=
  decide (p.vfAluOperand = .fault) && (decide (x = VF) || (readsY && decide (y = VF)))

/-- reads_Y for 8XY6 and 8XYE (R65): Y is read only under SHIFT_SOURCE = VY. -/
def shiftReadsY (p : Policy) : Bool := decide (p.shiftSource = .vy)

/-- A family-8 instruction (R24, R84): the VF-operand check first, then its result. -/
def aluGuard (op : Word) (readsY : Bool) (x y : Reg) (result : State) (s : State) :
    Host.Outcome State Fault Refusal :=
  if vfOperandRefused s.policy readsY x y then
    raise op (.outOfBoundsAccess .register) (some 15) s
  else finish false result

/-- The shifted value (R94, R96): V[X] under SHIFT_SOURCE = VX, V[Y] under VY. -/
def State.shiftOperand (s : State) (x y : Reg) : Byte :=
  match s.policy.shiftSource with
  | .vx => s.getV x
  | .vy => s.getV y

/-- The address I + 0 that an instruction's offsets k are added to, unbounded (R42). -/
def State.base (s : State) : Nat := s.index.toNat

/-- The key index from V[x] (R101); none is OutOfBoundsAccess(KEY_INDEX, V[x]). -/
def State.keyIndex (s : State) (x : Reg) : Option Nat :=
  let k := (s.getV x).toNat
  if k < numKeys then some k
  else
    match s.policy.keyIndexRange with
    | .fault => none
    | .mask => some (k % numKeys)

/-- The glyph digit from V[x] (R110); none is OutOfBoundsAccess(FONT_DIGIT, V[x]). -/
def State.fontDigit (s : State) (x : Reg) : Option Nat :=
  let d := (s.getV x).toNat
  if d < 16 then some d
  else
    match s.policy.fontDigitRange with
    | .fault => none
    | .mask => some (d % 16)

/-- The lowest key down (R108); none when no key is down. -/
def State.lowestKey (s : State) : Option Nat := (List.range numKeys).find? s.isKeyDown

/-- The key FX0A stores (R108): the lowest one down, or under KEYWAIT_PICK = ANY any one down; none when
no key is down. The free choice is `keyPick`, which counts if that key is down (log 9). -/
def State.waitedKey (s : State) : Option Nat :=
  match s.policy.keywaitPick with
  | .lowest => s.lowestKey
  | .any => if s.isKeyDown s.inputs.keyPick.val then some s.inputs.keyPick.val else s.lowestKey

/-- The three decimal digits of a byte, hundreds first (R111). -/
def bcdDigits (v : Byte) : List Byte :=
  [BitVec.ofNat 8 (v.toNat / 100), BitVec.ofNat 8 (v.toNat / 10 % 10), BitVec.ofNat 8 (v.toNat % 10)]

/-- I after FX55 and FX65 (R112, R113): I + X + 1 modulo 2^16 under LDST_INCREMENT_I = X_PLUS_1. -/
def State.bumpIndex (s : State) (x : Reg) : State :=
  match s.policy.ldstIncrementI with
  | .none => s
  | .xPlus1 => { s with index := s.index + BitVec.ofNat 16 (x.val + 1) }

/-- V[0], ..., V[x] in order, the bytes FX55 stores (R112). -/
def State.lowRegs (s : State) (x : Reg) : List Byte := s.v.toList.take (x.val + 1)

/-- V[i] <- mem[base + i] for i in 0..x, the move of FX65 (R113). -/
def State.loadLowRegs (s : State) (x : Reg) (base : Nat) : State :=
  { s with v := Vector.ofFn fun i : Fin 16 => if i ≤ x then s.byteAt (base + i.val) else s.v[i.val] }

end Sys2Proof.Machine
end

