-- ==== Sys2Proof/Machine/Alu.lean ====
section
/-! DEFINITION. The meanings of 41_alu.md: families 6, 7 and 8. Operands are read from the state before
anything is written (R14, R84), and every result wraps modulo 256 (R83). -/

namespace Sys2Proof.Machine

/-- 6XNN, LD Vx, byte (R86). -/
def execLdImm (x : Reg) (nn : Byte) (s : State) : Host.Outcome State Fault Refusal :=
  finish false (s.setV x nn)

/-- 7XNN, ADD Vx, byte (R87): no flag. -/
def execAddImm (x : Reg) (nn : Byte) (s : State) : Host.Outcome State Fault Refusal :=
  finish false (s.setV x (s.getV x + nn))

/-- 8XY0, LD Vx, Vy (R88). -/
def execLdReg (x y : Reg) (s : State) : Host.Outcome State Fault Refusal :=
  aluGuard (encode (.ldReg x y)) true x y (s.setV x (s.getV y)) s

/-- 8XY1, OR Vx, Vy (R89): VF unchanged. -/
def execOr (x y : Reg) (s : State) : Host.Outcome State Fault Refusal :=
  aluGuard (encode (.orReg x y)) true x y (s.setV x (s.getV x ||| s.getV y)) s

/-- 8XY2, AND Vx, Vy (R90): VF unchanged. -/
def execAnd (x y : Reg) (s : State) : Host.Outcome State Fault Refusal :=
  aluGuard (encode (.andReg x y)) true x y (s.setV x (s.getV x &&& s.getV y)) s

/-- 8XY3, XOR Vx, Vy (R91): VF unchanged. -/
def execXor (x y : Reg) (s : State) : Host.Outcome State Fault Refusal :=
  aluGuard (encode (.xorReg x y)) true x y (s.setV x (s.getV x ^^^ s.getV y)) s

/-- 8XY4, ADD Vx, Vy (R92): VF is the carry-out. -/
def execAddReg (x y : Reg) (s : State) : Host.Outcome State Fault Refusal :=
  aluGuard (encode (.addReg x y)) true x y
    (s.setResultFlag x (s.getV x + s.getV y) (carryOut (s.getV x) (s.getV y))) s

/-- 8XY5, SUB Vx, Vy (R93): VF is NOT-borrow. -/
def execSub (x y : Reg) (s : State) : Host.Outcome State Fault Refusal :=
  aluGuard (encode (.sub x y)) true x y
    (s.setResultFlag x (s.getV x - s.getV y) (notBorrow (s.getV x) (s.getV y))) s

/-- 8XY6, SHR Vx {, Vy} (R94): VF is the bit shifted out. -/
def execShr (x y : Reg) (s : State) : Host.Outcome State Fault Refusal :=
  aluGuard (encode (.shr x y)) (shiftReadsY s.policy) x y
    (s.setResultFlag x (s.shiftOperand x y >>> 1) (shrOut (s.shiftOperand x y))) s

/-- 8XY7, SUBN Vx, Vy (R95): V[Y] - V[X], VF is its NOT-borrow. -/
def execSubn (x y : Reg) (s : State) : Host.Outcome State Fault Refusal :=
  aluGuard (encode (.subn x y)) true x y
    (s.setResultFlag x (s.getV y - s.getV x) (notBorrow (s.getV y) (s.getV x))) s

/-- 8XYE, SHL Vx {, Vy} (R96): VF is the bit shifted out of the top. -/
def execShl (x y : Reg) (s : State) : Host.Outcome State Fault Refusal :=
  aluGuard (encode (.shl x y)) (shiftReadsY s.policy) x y
    (s.setResultFlag x (s.shiftOperand x y <<< 1) (shlOut (s.shiftOperand x y))) s

end Sys2Proof.Machine
end

