-- ==== Sys2Proof/Machine/Control.lean ====
section
/-! DEFINITION. The meanings of 40_control.md: families 0, 1, 2, 3/4 and 5/9. Each is applied to a state
whose PC is pc0 + 2 already (30_encoding.md R59). -/

namespace Sys2Proof.Machine

/-- 00E0, CLS (R73): every pixel 0, redraw true. -/
def execCls (s : State) : Host.Outcome State Fault Refusal :=
  finish true { s with fb := clearFB }

/-- 00EE, RET (R74): PC <- Pop(); StackUnderflow if SP = 0. -/
def execRet (s : State) : Host.Outcome State Fault Refusal :=
  match s.pop with
  | none => raise (encode .ret) .stackUnderflow none s
  | some (a, t) => finish false { t with pc := a }

/-- 0NNN, SYS (R75): no operation; NNN is ignored. -/
def execSys (_nnn : Addr) (s : State) : Host.Outcome State Fault Refusal :=
  finish false s

/-- 1NNN, JP (R76): PC <- zext_16(NNN), unchecked (R72). -/
def execJp (nnn : Addr) (s : State) : Host.Outcome State Fault Refusal :=
  finish false { s with pc := nnn.zeroExtend 16 }

/-- 2NNN, CALL (R77): Push(PC), PC <- zext_16(NNN); StackOverflow if SP = 16. -/
def execCall (nnn : Addr) (s : State) : Host.Outcome State Fault Refusal :=
  match s.push s.pc with
  | none => raise (encode (.call nnn)) .stackOverflow none s
  | some t => finish false { t with pc := nnn.zeroExtend 16 }

/-- 3XNN, SE Vx, byte (R79). -/
def execSeImm (x : Reg) (nn : Byte) (s : State) : Host.Outcome State Fault Refusal :=
  finish false (s.skipIf (decide (s.getV x = nn)))

/-- 4XNN, SNE Vx, byte (R80). -/
def execSneImm (x : Reg) (nn : Byte) (s : State) : Host.Outcome State Fault Refusal :=
  finish false (s.skipIf (decide (s.getV x ≠ nn)))

/-- 5XY0, SE Vx, Vy (R81). -/
def execSeReg (x y : Reg) (s : State) : Host.Outcome State Fault Refusal :=
  finish false (s.skipIf (decide (s.getV x = s.getV y)))

/-- 9XY0, SNE Vx, Vy (R82). -/
def execSneReg (x y : Reg) (s : State) : Host.Outcome State Fault Refusal :=
  finish false (s.skipIf (decide (s.getV x ≠ s.getV y)))

end Sys2Proof.Machine
end

