-- ==== Sys2Proof/Machine/IndexDraw.lean ====
section
/-! DEFINITION. The meanings of 42_index_jump_random_draw.md: families A, B, C and D. -/

namespace Sys2Proof.Machine

/-- ANNN, LD I, addr (R97). -/
def execLdI (nnn : Addr) (s : State) : Host.Outcome State Fault Refusal :=
  finish false { s with index := nnn.zeroExtend 16 }

/-- BNNN, JP V0, addr (R98): the sum is not masked to 12 bits. -/
def execJpV0 (nnn : Addr) (s : State) : Host.Outcome State Fault Refusal :=
  finish false { s with pc := nnn.zeroExtend 16 + (s.getV 0).zeroExtend 16 }

/-- CXNN, RND Vx, byte (R99): the step's free random byte under a mask. -/
def execRnd (x : Reg) (nn : Byte) (s : State) : Host.Outcome State Fault Refusal :=
  finish false (s.setV x (s.inputs.rnd8 &&& nn))

/-- The pixels the 1-bits of one sprite row are set at (R100): column c is bit 7 - c, every coordinate
wraps. DESIGN CHOICE (log 14): for FB_W = 0 or FB_H = 0, where the spec gives x mod 0 no meaning, the
coordinate stays x, as Nat's x % 0 is x. -/
def rowPixels (z : Sizes) (x0 y : Nat) (row : Byte) : List (Nat × Nat) :=
  ((List.range 8).filter fun c => row.getLsbD (7 - c)).map fun c => ((x0 + c) % z.fbW, y % z.fbH)

/-- The pixels a sprite's 1-bits are set at, in the order of the two loops of R100. -/
def spritePixels (z : Sizes) (x0 y0 : Nat) : List Byte → List (Nat × Nat)
  | [] => []
  | row :: rows => rowPixels z x0 y0 row ++ spritePixels z x0 (y0 + 1) rows

/-- One SetPixel for each of these pixels (R100); the Bool of the pair collects the collisions. -/
def drawPixels (acc : Framebuffer × Bool) : List (Nat × Nat) → Framebuffer × Bool
  | [] => acc
  | p :: ps => drawPixels ((setPixel acc.1 p.1 p.2).1, acc.2 || (setPixel acc.1 p.1 p.2).2) ps

/-- The pixels that DXYN sets in this state (R100). -/
def State.spriteAt (s : State) (x y : Reg) (n : Nibble) : List (Nat × Nat) :=
  spritePixels s.sizes (s.getV x).toNat (s.getV y).toNat (s.loadBytes s.base n.toNat)

/-- DXYN, DRW Vx, Vy, n (R100): all reads are checked first; then the XOR draw; then VF. -/
def execDrw (x y : Reg) (n : Nibble) (s : State) : Host.Outcome State Fault Refusal :=
  match firstFailing (readCheck s.sizes) s.base n.toNat with
  | some e => raiseAt (encode (.drw x y n)) e s
  | none =>
    let drawn := drawPixels (s.fb, false) (s.spriteAt x y n)
    finish true ({ s with fb := drawn.1 }.setV VF (flagByte drawn.2))

end Sys2Proof.Machine
end

