-- ==== Sys2Proof/Machine/KeysTimersMemory.lean ====
section
/-! DEFINITION. The meanings of 43_input_timers_memory.md: families E and F. -/

namespace Sys2Proof.Machine

/-- EX9E, SKP Vx (R103): skip if the key is down. -/
def execSkp (x : Reg) (s : State) : Host.Outcome State Fault Refusal :=
  match s.keyIndex x with
  | none => raise (encode (.skp x)) (.outOfBoundsAccess .keyIndex) (some (s.getV x).toNat) s
  | some k => finish false (s.skipIf (s.isKeyDown k))

/-- EXA1, SKNP Vx (R104): skip if the key is not down. -/
def execSknp (x : Reg) (s : State) : Host.Outcome State Fault Refusal :=
  match s.keyIndex x with
  | none => raise (encode (.sknp x)) (.outOfBoundsAccess .keyIndex) (some (s.getV x).toNat) s
  | some k => finish false (s.skipIf (!s.isKeyDown k))

/-- FX07, LD Vx, DT (R105). -/
def execLdVxDt (x : Reg) (s : State) : Host.Outcome State Fault Refusal :=
  finish false (s.setV x s.dt)

/-- FX15, LD DT, Vx (R106). -/
def execLdDtVx (x : Reg) (s : State) : Host.Outcome State Fault Refusal :=
  finish false { s with dt := s.getV x }

/-- FX18, LD ST, Vx (R107): the value is only stored. -/
def execLdStVx (x : Reg) (s : State) : Host.Outcome State Fault Refusal :=
  finish false { s with st := s.getV x }

/-- V[X] <- a key that is down, or a stall when none is (R69, R108). -/
def State.awaitKey (s : State) (x : Reg) : State :=
  match s.waitedKey with
  | none => s.stalled
  | some k => (s.setV x (BitVec.ofNat 8 k)).completed false

/-- FX0A, LD Vx, K (R108): a next state whatever the keys are; a stall is not an error (R69). -/
def execLdVxK (x : Reg) (s : State) : Host.Outcome State Fault Refusal :=
  .next (s.awaitKey x)

/-- FX1E, ADD I, Vx (R109): modulo 2^16, VF unchanged. -/
def execAddIVx (x : Reg) (s : State) : Host.Outcome State Fault Refusal :=
  finish false { s with index := s.index + (s.getV x).zeroExtend 16 }

/-- FX29, LD F, Vx (R110): I <- the address of the digit's glyph. -/
def execLdFVx (x : Reg) (s : State) : Host.Outcome State Fault Refusal :=
  match s.fontDigit x with
  | none => raise (encode (.ldFVx x)) (.outOfBoundsAccess .fontDigit) (some (s.getV x).toNat) s
  | some d => finish false { s with index := BitVec.ofNat 16 (s.sizes.fontBase + s.sizes.glyphBytes * d) }

/-- FX33, LD B, Vx (R111): the decimal digits to mem[I..I+2], hundreds first. -/
def execLdBVx (x : Reg) (s : State) : Host.Outcome State Fault Refusal :=
  match firstFailing (writeCheck s.sizes s.policy) s.base 3 with
  | some e => raiseAt (encode (.ldBVx x)) e s
  | none => finish false (s.storeBytes s.base (bcdDigits (s.getV x)))

/-- FX55, LD [I], Vx (R112): V0..VX to mem[I..I+X]. -/
def execLdMemVx (x : Reg) (s : State) : Host.Outcome State Fault Refusal :=
  match firstFailing (writeCheck s.sizes s.policy) s.base (x.val + 1) with
  | some e => raiseAt (encode (.ldMemVx x)) e s
  | none => finish false ((s.storeBytes s.base (s.lowRegs x)).bumpIndex x)

/-- FX65, LD Vx, [I] (R113): V0..VX from mem[I..I+X]. -/
def execLdVxMem (x : Reg) (s : State) : Host.Outcome State Fault Refusal :=
  match firstFailing (readCheck s.sizes) s.base (x.val + 1) with
  | some e => raiseAt (encode (.ldVxMem x)) e s
  | none => finish false ((s.loadLowRegs x s.base).bumpIndex x)

end Sys2Proof.Machine
end

