-- ==== Sys2Proof/Machine/Step.lean ====
section
/-! DEFINITION. The step (30_encoding.md R68): fetch, advance, decode, execute; and where a test
instruction is placed so that the next step runs it. -/

namespace Sys2Proof.Machine

/-- Step(s, keys, rnd8) of R68 for a core that is not halted: fetch, advance, decode, execute, with a
fetch or decode fault taken where it arises. -/
def coreStep (s : State) : Host.Outcome State Fault Refusal :=
  match s.fetch with
  | none =>
    .next (s.takeFault
      { kind := .outOfBoundsAccess .fetch, pc := s.pc, opcode := none, info := some s.pc.toNat })
  | some op =>
    match decode s.policy op with
    | .error (.unknownOpcode w) => raise w .unknownOpcode none s.advance
    | .ok i => exec i s.advance

/-- What follows a step: the environment chooses the next step's inputs (R9, R122; log 3). -/
def afterStep : Host.Outcome State Fault Refusal → Host.Outcome State Fault Refusal
  | .next s => .next s.drawInputs
  | .fault f => .fault f
  | .refused r => .refused r

/-- One step. A halted core takes none (R116). Otherwise the host's ticks of the interval before the
step are applied (R122, R123), then the core steps, then the next inputs are drawn (log 3). -/
def step (s : State) : Host.Outcome State Fault Refusal :=
  match s.fault with
  | some r => .fault (.halted r)
  | none => afterStep (coreStep s.applyTicks)

/-- The state with an opcode-table word stored where the next step fetches, at PC, and with no halt
record. Where no step could fetch at PC, PC becomes PROG_BASE first, the entry point (R132; log 12).
It stands for the host's Load (R57). -/
def State.withFetchWord (s : State) (nbits w : Nat) : State :=
  let op := tableWord nbits w
  let pc := if fetchRefused s.sizes s.policy s.pc.toNat then BitVec.ofNat 16 s.sizes.progBase else s.pc
  { s with pc := pc, fault := none }.storeBytes pc.toNat [hiByte op, loByte op]

end Sys2Proof.Machine
end

