-- ==== Sys2Proof/Machine/HostOps.lean ====
section
/-! DEFINITION. The host's operations between steps other than Step itself (60_exceptions.md R122):
Reset and Load. TickTimers is `State.tickTimers` of Machine/Ops.lean. No step calls these two. -/

namespace Sys2Proof.Machine

/-- Why a Load fails (20_memory.md R57); a host-level error, not a step fault (R114). -/
inductive LoadError where
  /-- The program is longer than MEM_SIZE - PROG_BASE. -/
  | capacity
  /-- The source cannot be read. -/
  | unreadable
  deriving DecidableEq, Repr

/-- Reset() (R131, R133): every state element at its reset value, from any state, the halted one
included. What is not core state stays: the parameters, and the environment's inputs (log 11). -/
def State.hostReset (s : State) : State :=
  { State.resetWith s.sizes s.policy with inputs := s.inputs, draws := s.draws }

/-- Load(bytes) (R57): all or nothing; a source that cannot be read is none. It writes no register. -/
def State.load (s : State) (source : Option (List Byte)) : Except LoadError State :=
  match source with
  | none => .error .unreadable
  | some bytes =>
    if s.sizes.memSize < s.sizes.progBase + bytes.length then .error .capacity
    else .ok (s.storeBytes s.sizes.progBase bytes)

end Sys2Proof.Machine
end

