-- ==== Sys2Proof/Safety.lean ====
section
/-! DEFINITION. The terms statements about runs use: invariants, which instruction may write what, runs,
and the end of a run (70_reset_and_hazards.md R135). -/

namespace Sys2Proof.Machine

/-- Memory is in its canonical form. -/
abbrev State.memWf (s : State) : Prop :=
  Memory.wf s.sizes.memSize (resetByte s.sizes s.policy) s.mem

/-- The framebuffer is in its canonical form. -/
abbrev State.fbWf (s : State) : Prop := Framebuffer.wf s.sizes s.fb

/-- The call stack has STACK_DEPTH slots, and SP is in 0..STACK_DEPTH (R28). -/
def State.stackWf (s : State) : Prop :=
  s.stack.length = s.sizes.stackDepth ∧ s.sp ≤ s.sizes.stackDepth

/-- The glyph table reads as FONT_TABLE (R44, R45). -/
def State.glyphsIntact (s : State) : Prop :=
  ∀ a, (h : a < s.policy.fontTable.length) → s.byteAt (s.sizes.fontBase + a) = s.policy.fontTable[a]

/-- Every byte of memory reads in t as it reads in s. -/
def sameBytes (s t : State) : Prop := ∀ a, t.byteAt a = s.byteAt a

/-- Every byte outside the n addresses from base on reads in t as it reads in s. -/
def sameBytesOutside (base n : Nat) (s t : State) : Prop :=
  ∀ a, a < base ∨ base + n ≤ a → t.byteAt a = s.byteAt a

/-- Every V register but those a predicate names holds in t what it holds in s. -/
def sameRegsBut (named : Reg → Prop) (s t : State) : Prop :=
  ∀ r, ¬ named r → t.getV r = s.getV r

/-- A framebuffer with every pixel 0 (R124). -/
def State.blank (s : State) : Prop := ∀ x y, s.pixel x y = false

/-- The V registers an instruction may read, the middle column of the table of 10_state.md R21. -/
def readsV (p : Policy) : Instr → Reg → Prop
  | .seImm x _, r | .sneImm x _, r | .addImm x _, r => r = x
  | .seReg x y, r | .sneReg x y, r => r = x ∨ r = y
  | .ldReg _ y, r => r = y
  | .orReg x y, r | .andReg x y, r | .xorReg x y, r => r = x ∨ r = y
  | .addReg x y, r | .sub x y, r | .subn x y, r => r = x ∨ r = y
  | .shr x y, r | .shl x y, r => if p.shiftSource = .vy then r = y else r = x
  | .jpV0 _, r => r = 0
  | .drw x y _, r => r = x ∨ r = y
  | .skp x, r | .sknp x, r => r = x
  | .ldDtVx x, r | .ldStVx x, r | .addIVx x, r | .ldFVx x, r | .ldBVx x, r => r = x
  | .ldMemVx x, r => r ≤ x
  | .cls, _ | .ret, _ | .sys _, _ | .jp _, _ | .call _, _ | .ldImm _ _, _ | .ldI _, _ => False
  | .rnd _ _, _ | .ldVxDt _, _ | .ldVxK _, _ | .ldVxMem _, _ => False

/-- The V registers an instruction may write, the last column of the table of R21; the instructions it
does not list write none. -/
def writesV : Instr → Reg → Prop
  | .ldImm x _, r | .addImm x _, r | .rnd x _, r | .ldVxDt x, r | .ldVxK x, r => r = x
  | .ldReg x _, r | .orReg x _, r | .andReg x _, r | .xorReg x _, r => r = x
  | .addReg x _, r | .sub x _, r | .subn x _, r | .shr x _, r | .shl x _, r => r = x ∨ r = VF
  | .drw _ _ _, r => r = VF
  | .ldVxMem x, r => r ≤ x
  | .cls, _ | .ret, _ | .sys _, _ | .jp _, _ | .call _, _ | .seImm _ _, _ | .sneImm _ _, _ => False
  | .seReg _ _, _ | .sneReg _ _, _ | .ldI _, _ | .jpV0 _, _ | .skp _, _ | .sknp _, _ => False
  | .ldDtVx _, _ | .ldStVx _, _ | .addIVx _, _ | .ldFVx _, _ | .ldBVx _, _ | .ldMemVx _, _ => False

/-- The instructions that write I (R25). -/
def writesIndex (p : Policy) : Instr → Prop
  | .ldI _ | .addIVx _ | .ldFVx _ => True
  | .ldMemVx _ | .ldVxMem _ => p.ldstIncrementI = .xPlus1
  | .cls | .ret | .sys _ | .jp _ | .call _ | .seImm _ _ | .sneImm _ _ | .seReg _ _ | .sneReg _ _ => False
  | .ldImm _ _ | .addImm _ _ | .ldReg _ _ | .orReg _ _ | .andReg _ _ | .xorReg _ _ => False
  | .addReg _ _ | .sub _ _ | .shr _ _ | .subn _ _ | .shl _ _ | .jpV0 _ | .rnd _ _ | .drw _ _ _ => False
  | .skp _ | .sknp _ | .ldVxDt _ | .ldVxK _ | .ldDtVx _ | .ldStVx _ | .ldBVx _ => False

/-- The instructions that write PC beyond the fetch's advance (R26). -/
def writesPc : Instr → Prop
  | .ret | .jp _ | .call _ | .jpV0 _ => True
  | .seImm _ _ | .sneImm _ _ | .seReg _ _ | .sneReg _ _ | .skp _ | .sknp _ | .ldVxK _ => True
  | .cls | .sys _ | .ldImm _ _ | .addImm _ _ | .ldReg _ _ | .orReg _ _ | .andReg _ _ => False
  | .xorReg _ _ | .addReg _ _ | .sub _ _ | .shr _ _ | .subn _ _ | .shl _ _ | .ldI _ => False
  | .rnd _ _ | .drw _ _ _ | .ldVxDt _ | .ldDtVx _ | .ldStVx _ | .addIVx _ | .ldFVx _ => False
  | .ldBVx _ | .ldMemVx _ | .ldVxMem _ => False

/-- The skips (R71). -/
def isSkip : Instr → Prop
  | .seImm _ _ | .sneImm _ _ | .seReg _ _ | .sneReg _ _ | .skp _ | .sknp _ => True
  | .cls | .ret | .sys _ | .jp _ | .call _ | .ldImm _ _ | .addImm _ _ | .ldReg _ _ => False
  | .orReg _ _ | .andReg _ _ | .xorReg _ _ | .addReg _ _ | .sub _ _ | .shr _ _ => False
  | .subn _ _ | .shl _ _ | .ldI _ | .jpV0 _ | .rnd _ _ | .drw _ _ _ | .ldVxDt _ | .ldVxK _ => False
  | .ldDtVx _ | .ldStVx _ | .addIVx _ | .ldFVx _ | .ldBVx _ | .ldMemVx _ | .ldVxMem _ => False

/-- The faults an instruction may raise, the table of R114. -/
def mayRaise (p : Policy) : FaultKind → Instr → Prop
  | .stackOverflow, i => ∃ nnn, i = .call nnn
  | .stackUnderflow, i => i = .ret
  | .outOfBoundsAccess .read, i => (∃ x y n, i = .drw x y n) ∨ ∃ x, i = .ldVxMem x
  | .outOfBoundsAccess .write, i => (∃ x, i = .ldBVx x) ∨ ∃ x, i = .ldMemVx x
  | .outOfBoundsAccess .fontWrite, i =>
    p.fontWrite = .fault ∧ ((∃ x, i = .ldBVx x) ∨ ∃ x, i = .ldMemVx x)
  | .outOfBoundsAccess .register, i =>
    p.vfAluOperand = .fault ∧ ∃ x y, i ∈ [Instr.ldReg x y, .orReg x y, .andReg x y, .xorReg x y,
      .addReg x y, .sub x y, .shr x y, .subn x y, .shl x y]
  | .outOfBoundsAccess .keyIndex, i =>
    p.keyIndexRange = .fault ∧ ((∃ x, i = .skp x) ∨ ∃ x, i = .sknp x)
  | .outOfBoundsAccess .fontDigit, i => p.fontDigitRange = .fault ∧ ∃ x, i = .ldFVx x
  | .outOfBoundsAccess .fetch, _ => False
  | .unknownOpcode, _ => False

/-- Whether a skip's condition holds (R79 to R82, R103, R104), for one that completes: an index above 15
is masked then (R101). No other instruction skips. -/
def skipTaken (i : Instr) (s : State) : Prop :=
  match i with
  | .seImm x nn => s.getV x = nn
  | .sneImm x nn => s.getV x ≠ nn
  | .seReg x y => s.getV x = s.getV y
  | .sneReg x y => s.getV x ≠ s.getV y
  | .skp x => s.inputs.keys.getLsbD ((s.getV x).toNat % 16) = true
  | .sknp x => s.inputs.keys.getLsbD ((s.getV x).toNat % 16) = false
  | .cls | .ret | .sys _ | .jp _ | .call _ | .ldImm _ _ | .addImm _ _ | .ldReg _ _ => False
  | .orReg _ _ | .andReg _ _ | .xorReg _ _ | .addReg _ _ | .sub _ _ | .shr _ _ => False
  | .subn _ _ | .shl _ _ | .ldI _ | .jpV0 _ | .rnd _ _ | .drw _ _ _ | .ldVxDt _ | .ldVxK _ => False
  | .ldDtVx _ | .ldStVx _ | .addIVx _ | .ldFVx _ | .ldBVx _ | .ldMemVx _ | .ldVxMem _ => False

/-- The redraw flag a step returns (R34): false for a stall, and none with a fault. -/
def StepResult.redraw : StepResult → Option Bool
  | .done b => some b
  | .stall => some false
  | .fault _ => none

/-! ### The effect of one instruction, as a statement -/

/-- The word with this value decodes to the instruction under every policy: the Encoding line of a rule. -/
def decodesTo (value : Nat) (i : Instr) : Prop := ∀ p : Policy, decode p (BitVec.ofNat 16 value) = .ok i

/-- The instruction completes and writes one V register, x, with a value below 256: every other register,
every byte of memory and every other piece of state, the pc included, is as before. -/
def regEffect (i : Instr) (x : Reg) (value : Nat) (s : State) : Prop :=
  ∃ t, exec i s = .next t ∧ (t.getV x).toNat = value ∧ sameRegsBut (· = x) s t ∧ sameBytes s t ∧
    t = { s with v := t.v, result := some (.done false) }

/-- The instruction completes and writes a result to x and then a flag to VF (R84): where x is VF, VF
holds the flag. Everything else is as before. -/
def flagEffect (i : Instr) (x : Reg) (value flag : Nat) (s : State) : Prop :=
  ∃ t, exec i s = .next t ∧ (x ≠ VF → (t.getV x).toNat = value) ∧ (t.getV VF).toNat = flag ∧
    sameRegsBut (fun r => r = x ∨ r = VF) s t ∧ sameBytes s t ∧
    t = { s with v := t.v, result := some (.done false) }

/-- The instruction completes and skips exactly when the condition holds (R71): nothing but the pc is
written. -/
def skipEffect (i : Instr) (cond : Prop) (s : State) : Prop :=
  ∃ t, exec i s = .next t ∧ (cond → t.pc = s.pc + 2) ∧ (¬ cond → t.pc = s.pc) ∧ sameBytes s t ∧
    t = { s with pc := t.pc, result := some (.done false) }

/-- The instruction completes and writes I with this value, and nothing else. -/
def indexEffect (i : Instr) (value : Nat) (s : State) : Prop :=
  ∃ t, exec i s = .next t ∧ t.index.toNat = value ∧ sameBytes s t ∧
    t = { s with index := t.index, result := some (.done false) }

/-- The instruction completes and writes PC with this value, and nothing else. -/
def pcEffect (i : Instr) (value : Nat) (s : State) : Prop :=
  ∃ t, exec i s = .next t ∧ t.pc.toNat = value ∧ sameBytes s t ∧
    t = { s with pc := t.pc, result := some (.done false) }

/-- The instruction takes a fault (R115): the halt record holds the kind, the instruction's own address
PC - 2 (R14), its word and the info; the pc is that address again; nothing else changes. -/
def faultEffect (i : Instr) (kind : FaultKind) (info : Option Nat) (s : State) : Prop :=
  exec i s = .next
    { s with
      pc := s.pc - 2
      fault := some ⟨kind, s.pc - 2, some (encode i), info⟩
      result := some (.fault ⟨kind, s.pc - 2, some (encode i), info⟩) }

/-- The instruction takes a fault of this kind (R115), whatever its info is. -/
def faultTaken (i : Instr) (kind : FaultKind) (s : State) : Prop := ∃ info, faultEffect i kind info s

/-- A program may write this address (R41): it is below MEM_SIZE, and not in the glyph table where that is
protected. -/
def State.writable (s : State) (a : Nat) : Prop :=
  a < s.sizes.memSize ∧
    (s.policy.fontWrite = .fault → a < s.sizes.fontBase ∨ s.sizes.fontBase + s.policy.fontSize ≤ a)

/-- The fault of an address that a program may not write (R41, R117). -/
def State.writeFault (s : State) (a : Nat) : FaultKind :=
  if s.sizes.memSize ≤ a then .outOfBoundsAccess .write else .outOfBoundsAccess .fontWrite

/-- Row r and column c of the sprite of DXYN in this state hold a 1-bit for the pixel (px, py) (R100): bit
7 - c of the byte at I + r is set, and (px, py) are the wrapped coordinates (for FB_W = 0 or FB_H = 0 those
of log 14). -/
abbrev spriteBit (x y : Reg) (s : State) (px py r c : Nat) : Prop :=
  (s.byteAt (s.base + r)).getLsbD (7 - c) = true ∧
    ((s.getV x).toNat + c) % s.sizes.fbW = px ∧ ((s.getV y).toNat + r) % s.sizes.fbH = py

/-- The sprite covers the pixel (px, py): some row below n and column below 8 has a 1-bit for it. -/
def spriteCovers (x y : Reg) (n : Nibble) (s : State) (px py : Nat) : Prop :=
  ∃ r < n.toNat, ∃ c < 8, spriteBit x y s px py r c

/-- How many 1-bits the sprite has for the pixel (px, py): the SetPixel calls DXYN makes for it. -/
def spriteCount (x y : Reg) (n : Nibble) (s : State) (px py : Nat) : Nat :=
  ((List.range n.toNat).map fun r =>
    (List.range 8).countP fun c => decide (spriteBit x y s px py r c)).sum

/-- DXYN completes and calls SetPixel once for each 1-bit of the sprite (R100): a pixel ends inverted where
their number is odd; VF says whether one of the calls met a set pixel, which is one set before or one
called for twice; it returns redraw = true; no other register, no byte and nothing else changes. -/
def drawEffect (x y : Reg) (n : Nibble) (s : State) : Prop :=
  let collides := ∃ px py, (spriteCovers x y n s px py ∧ s.pixel px py = true) ∨
    2 ≤ spriteCount x y n s px py
  ∃ t, exec (.drw x y n) s = .next t ∧
    (∀ px py, (spriteCount x y n s px py % 2 = 1 → t.pixel px py = !s.pixel px py) ∧
      (spriteCount x y n s px py % 2 = 0 → t.pixel px py = s.pixel px py)) ∧
    (collides → t.getV VF = 1) ∧ (¬ collides → t.getV VF = 0) ∧
    sameRegsBut (· = VF) s t ∧ sameBytes s t ∧
    t = { s with v := t.v, fb := t.fb, result := some (.done true) }

/-! ### Runs -/

/-- A run of steps from s to u in which every state, s and u included, has more than k slots in use. -/
inductive StepsAbove (k : Nat) : State → State → Prop where
  | refl (s : State) (h : k < s.sp) : StepsAbove k s s
  | tail {s t u : State} (run : StepsAbove k s t) (one : step t = .next u) (h : k < u.sp) :
      StepsAbove k s u

/-- A run has ended normally (R135): the instruction at PC is a jump to itself and the halt record is
none. The core does not stop there. -/
def State.runEnded (s : State) : Prop :=
  s.fault = none ∧ ∃ nnn : Addr, s.fetch = some (encode (.jp nnn)) ∧ nnn.zeroExtend 16 = s.pc

end Sys2Proof.Machine
end

