-- ==== Sys2Proof/Certificates/Slice0/Obligations.lean ====
section
/-! DEFINITION. The statements for the provers, from the numbered rules of spec/. Each docstring names
the rule; "derived" says that the statement rests on an inference or on a choice of the model. -/

open Sys2Proof Sys2Proof.Machine

/-! ### Encoding -/

/-- derived, R61, R62, R64, R65 (log 6): decoding an encoded well-formed instruction gives it back, under
every policy and at every value of every field. That a family-8 word naming VF decodes under VF_ALU_OPERAND
= FAULT too, and faults when it runs, is the model's choice. -/
def Obligations.DecodeOfEncodeIsTheInstruction : Prop :=
  ∀ (p : Policy) (i : Instr), i.wellFormed = true → decode p (encode i) = .ok i

/-- derived, R62, R64, R65 (log 6): a word that decodes is the word of its instruction, which is well formed;
under STRICT_LOW_NIBBLE = IGNORE a 5XYn or 9XYn is that word but for its low nibble. -/
def Obligations.EncodeOfDecodeIsTheWord : Prop :=
  ∀ (p : Policy) (op : Word) (i : Instr), decode p op = .ok i →
    i.wellFormed = true ∧
      (encode i = op ∨
        (p.strictLowNibble = .ignore ∧ encode i = op &&& 0xFFF0 ∧
          ((∃ x y, i = .seReg x y) ∨ ∃ x y, i = .sneReg x y)))

/-- derived, R65, R66: the unknown opcodes are exactly the listed ones. -/
def Obligations.UnknownOpcodesAreExactlyTheListedOnes : Prop :=
  ∀ (p : Policy) (op : Word),
    decode p op = .error (.unknownOpcode op) ↔
      (p.strictLowNibble = .fault ∧ (op.extractLsb' 12 4 = 0x5#4 ∨ op.extractLsb' 12 4 = 0x9#4) ∧
        op.extractLsb' 0 4 ≠ 0x0#4) ∨
      (op.extractLsb' 12 4 = 0x8#4 ∧
        op.extractLsb' 0 4 ∈ [0x8#4, 0x9#4, 0xA#4, 0xB#4, 0xC#4, 0xD#4, 0xF#4]) ∨
      (op.extractLsb' 12 4 = 0xE#4 ∧ op.extractLsb' 0 8 ∉ [0x9E#8, 0xA1#8]) ∨
      (op.extractLsb' 12 4 = 0xF#4 ∧ op.extractLsb' 0 8 ∉
        [0x07#8, 0x0A#8, 0x15#8, 0x18#8, 0x1E#8, 0x29#8, 0x33#8, 0x55#8, 0x65#8])

/-- derived, R64 and 95_test_vectors.md: words of every family decode to the instructions they stand
for. -/
def Obligations.SpecWordsDecodeToTheirInstructions : Prop :=
  decode .default 0x00E0 = .ok .cls ∧ decode .default 0x00EE = .ok .ret ∧
  decode .default 0x0123 = .ok (.sys 0x123) ∧ decode .default 0x1234 = .ok (.jp 0x234) ∧
  decode .default 0x2300 = .ok (.call 0x300) ∧ decode .default 0x3342 = .ok (.seImm 3 0x42) ∧
  decode .default 0x4342 = .ok (.sneImm 3 0x42) ∧
  decode .default 0x5120 = .ok (.seReg 1 2) ∧ decode .default 0x6005 = .ok (.ldImm 0 5) ∧
  decode .default 0x7103 = .ok (.addImm 1 3) ∧ decode .default 0x8124 = .ok (.addReg 1 2) ∧
  decode .default 0x812E = .ok (.shl 1 2) ∧ decode .default 0x9120 = .ok (.sneReg 1 2) ∧
  decode .default 0xA2F0 = .ok (.ldI 0x2F0) ∧ decode .default 0xB300 = .ok (.jpV0 0x300) ∧
  decode .default 0xC30F = .ok (.rnd 3 0x0F) ∧ decode .default 0xD015 = .ok (.drw 0 1 5) ∧
  decode .default 0xE59E = .ok (.skp 5) ∧ decode .default 0xF333 = .ok (.ldBVx 3)

/-! ### The step -/

/-- derived, R58, R59, R68, R123 (log 3, log 6): a step of a core that is not halted is one call of Step after the
host's ticks, and before the next inputs are drawn; and it runs the decoded instruction on the pc advanced
by 2. -/
def Obligations.StepRunsTheDecodedInstruction : Prop :=
  ∀ s : State, s.fault = none →
    step s = afterStep (coreStep s.applyTicks) ∧
    ∀ i : Instr, fetchRefused s.sizes s.policy s.pc.toNat = false →
      decode s.policy (wordOfBytes (s.byteAt s.pc.toNat) (s.byteAt (s.pc.toNat + 1))) = .ok i →
      step s = afterStep (exec i s.applyTicks.advance)

/-- R58: where the fetch is refused the step takes OutOfBoundsAccess(FETCH, pc0), and elsewhere it reads
the two bytes at PC and PC + 1, the first one as the high byte. -/
def Obligations.FetchIsRefusedOrBigEndian : Prop :=
  ∀ s : State,
    let pc0 := s.pc.toNat
    let refused := (s.policy.fetchCheck = .strict ∧ (pc0 % 2 = 1 ∨ pc0 < s.sizes.progBase)) ∨
      s.sizes.memSize < pc0 + 2
    (s.fault = none → refused →
      ∃ t, step s = .next t ∧ t.fault = some ⟨.outOfBoundsAccess .fetch, s.pc, none, some pc0⟩ ∧
        t.result = some (.fault ⟨.outOfBoundsAccess .fetch, s.pc, none, some pc0⟩) ∧ t.pc = s.pc) ∧
    (¬ refused → ∃ op, s.fetch = some op ∧
      op.toNat = (s.byteAt pc0).toNat * 256 + (s.byteAt (pc0 + 1)).toNat)

/-- derived, R66, R115 (log 8): a fetched word that is no instruction halts the core with UnknownOpcode, its
address and the raw opcode, and the pc stays. That the record's info is none is the model's reading. -/
def Obligations.UnknownOpcodeHaltsTheCore : Prop :=
  ∀ (s : State) (op : Word), s.fault = none → s.fetch = some op →
    decode s.policy op = .error (.unknownOpcode op) →
    ∃ t, step s = .next t ∧ t.fault = some ⟨.unknownOpcode, s.pc, some op, none⟩ ∧
      t.result = some (.fault ⟨.unknownOpcode, s.pc, some op, none⟩) ∧ t.pc = s.pc

/-- R116: while the halt record is set there is no step, and of the host's operations only Reset clears
it. -/
def Obligations.HaltedCoreTakesNoStep : Prop :=
  ∀ (s : State) (r : FaultRecord), s.fault = some r →
    step s = .fault (.halted r) ∧ s.hostReset.fault = none ∧ s.tickTimers.fault = some r ∧
      ∀ (source : Option (List Byte)) (t : State), s.load source = .ok t → t.fault = some r

/-- derived, R68, R116: a step has a next state exactly when the core is not halted, and is never
refused. -/
def Obligations.StepIsTotalUnlessHalted : Prop :=
  ∀ s : State, (s.fault = none ↔ ∃ t, step s = .next t) ∧ ∀ r, step s ≠ .refused r

/-- R115: a Step that raises a fault leaves exactly the state before it, plus the record, whose pc is the
instruction's address and whose opcode is the fetched word; it returns Fault(record). -/
def Obligations.FaultsArePrecise : Prop :=
  ∀ (s t : State) (r : FaultRecord), s.fault = none → coreStep s = .next t → t.fault = some r →
    t = { s with fault := some r, result := some (.fault r) } ∧ r.pc = s.pc ∧ r.opcode = s.fetch

/-- R69: a stall ends a Step with the state exactly as it was before it, and the same word is fetched
again; only FX0A stalls, and only when no key is down. -/
def Obligations.StallChangesNothing : Prop :=
  ∀ s t : State, coreStep s = .next t → t.result = some .stall →
    t = { s with result := some .stall } ∧ t.fetch = s.fetch ∧
    t.result.bind StepResult.redraw = some false ∧
    (∀ k, k < 16 → s.inputs.keys.getLsbD k = false) ∧
    ∃ op x, s.fetch = some op ∧ decode s.policy op = .ok (.ldVxK x)

/-- derived, R114: an instruction raises only the faults its rows of the table name, and UnknownOpcode and
the fetch fault are no instruction's. -/
def Obligations.FaultsAreRaisedOnlyByTheirInstructions : Prop :=
  ∀ (i : Instr) (s t : State) (r : FaultRecord), s.fault = none → exec i s = .next t →
    t.fault = some r → mayRaise s.policy r.kind i

/-- derived, R114 (log 8): a StackOverflow, StackUnderflow or UnknownOpcode record has no info, and every
other record has one. That the three kinds have none is the model's reading of R33 and R114. -/
def Obligations.InfoIsRecordedWhereTheKindHasOne : Prop :=
  ∀ (s t : State) (r : FaultRecord), s.fault = none → coreStep s = .next t → t.fault = some r →
    (r.info = none ↔ r.kind = .stackOverflow ∨ r.kind = .stackUnderflow ∨ r.kind = .unknownOpcode)

/-- derived, R34: the redraw flag a step returns is true exactly for 00E0 and DXYN. -/
def Obligations.RedrawIsTrueExactlyForClearAndDraw : Prop :=
  ∀ (i : Instr) (s t : State) (b : Bool), exec i s = .next t →
    t.result.bind StepResult.redraw = some b → (b = true ↔ i = .cls ∨ ∃ x y n, i = .drw x y n)

/-- derived, R7, R8, R9 (log 3, log 4): no step changes a parameter, and every step draws the inputs of
the next one. -/
def Obligations.StepKeepsPolicyAndDrawsInputs : Prop :=
  ∀ s t : State, step s = .next t →
    t.sizes = s.sizes ∧ t.policy = s.policy ∧ t.inputs = Inputs.drawn s.draws ∧ t.draws = s.draws + 1

/-! ### Invariants -/

/-- derived, R39, R45: every step keeps the canonical form of memory. -/
def Obligations.StepKeepsMemoryCanonical : Prop :=
  ∀ s t : State, s.memWf → step s = .next t → t.memWf

/-- derived, R41, R44: under FONT_WRITE = FAULT every step keeps the glyph table equal to FONT_TABLE. -/
def Obligations.StepKeepsTheGlyphTable : Prop :=
  ∀ s t : State, s.policy.fontWrite = .fault → s.glyphsIntact → step s = .next t →
    t.glyphsIntact ∧ t.policy.fontWrite = .fault

/-- derived, R28 (log 13): every step keeps the call stack at STACK_DEPTH slots and SP in
0..STACK_DEPTH. -/
def Obligations.StepKeepsTheStackInRange : Prop :=
  ∀ s t : State, s.stackWf → step s = .next t → t.stackWf

/-- derived, R36, R100 (log 10): every step keeps the canonical form of the framebuffer, and so every
pixel that is set inside FB_W x FB_H. -/
def Obligations.StepKeepsFramebufferCanonical : Prop :=
  ∀ s t : State, 0 < s.sizes.fbW → 0 < s.sizes.fbH → s.fbWf → step s = .next t →
    t.fbWf ∧ t.sizes = s.sizes

/-- derived, R28, R36, R38, R45: the reset state meets the invariants, under all parameters. -/
def Obligations.ResetMeetsTheInvariants : Prop :=
  ∀ (z : Sizes) (p : Policy),
    let t := State.resetWith z p
    t.memWf ∧ t.glyphsIntact ∧ t.stackWf ∧ t.fbWf

/-! ### Reset, load, ticks -/

/-- R131, R38: Reset sets every state element to its reset value, from every state, the halted one
included, and State.reset has the reset values of the default parameters. -/
def Obligations.ResetGivesTheResetValues : Prop :=
  let hasResetValues := fun (z : Sizes) (p : Policy) (t : State) =>
    (∀ r, t.getV r = 0) ∧ t.index = 0 ∧ (z.progBase < 65536 → t.pc.toNat = z.progBase) ∧
    t.stack.length = z.stackDepth ∧ (∀ j, j < z.stackDepth → t.stack[j]? = some 0) ∧ t.sp = 0 ∧
    t.dt = 0 ∧ t.st = 0 ∧ t.fault = none ∧
    (∀ a, (h : a < p.fontTable.length) → t.byteAt (z.fontBase + a) = p.fontTable[a]) ∧
    (∀ a, a < z.fontBase ∨ z.fontBase + p.fontTable.length ≤ a → t.byteAt a = 0) ∧ t.blank
  (∀ s : State, hasResetValues s.sizes s.policy s.hostReset) ∧
  hasResetValues .default .default State.reset ∧ State.reset.pc = 0x200

/-- derived, R57: Load copies the program to PROG_BASE byte by byte and changes nothing else; a program of
more than MEM_SIZE - PROG_BASE bytes, and a source that cannot be read, are LoadErrors. -/
def Obligations.LoadCopiesTheProgramOrFails : Prop :=
  ∀ (s : State) (bytes : List Byte),
    (s.sizes.progBase + bytes.length ≤ s.sizes.memSize →
      ∃ t, s.load (some bytes) = .ok t ∧
        (∀ j, (h : j < bytes.length) → t.byteAt (s.sizes.progBase + j) = bytes[j]) ∧
        sameBytesOutside s.sizes.progBase bytes.length s t ∧ t = { s with mem := t.mem }) ∧
    (s.sizes.memSize < s.sizes.progBase + bytes.length → s.load (some bytes) = .error .capacity) ∧
    s.load none = .error .unreadable

/-- derived, R123 (log 3): one TickTimers takes 1 from each nonzero timer and touches nothing else, and
the ticks before a step are that many calls of it. -/
def Obligations.TicksAreRepeatedTickTimers : Prop :=
  ∀ s : State, s.tickTimers.dt.toNat = s.dt.toNat - 1 ∧ s.tickTimers.st.toNat = s.st.toNat - 1 ∧
    s.tickTimers = { s with dt := s.tickTimers.dt, st := s.tickTimers.st } ∧
    s.applyTicks = State.tickTimers^[s.inputs.ticks] s

/-! ### Families 0, 1, 2 and B -/

/-- R73: CLS makes every pixel 0 and returns redraw = true; nothing else changes. -/
def Obligations.ClsClearsTheFramebuffer : Prop :=
  decodesTo 0x00E0 .cls ∧
  ∀ s : State, ∃ t, exec .cls s = .next t ∧ t.blank ∧ sameBytes s t ∧
    t = { s with fb := t.fb, result := some (.done true) }

/-- R74: RET pops the return address, or raises StackUnderflow when SP = 0. The slot is not cleared. -/
def Obligations.RetPopsOrUnderflows : Prop :=
  decodesTo 0x00EE .ret ∧
  ∀ s : State,
    (s.stackWf → s.sp ≠ 0 → ∃ t, exec .ret s = .next t ∧ s.stack[s.sp - 1]? = some t.pc ∧
      t.sp = s.sp - 1 ∧ sameBytes s t ∧
      t = { s with pc := t.pc, sp := t.sp, result := some (.done false) }) ∧
    (s.sp = 0 → faultTaken .ret .stackUnderflow s)

/-- R77: CALL pushes the advanced pc and jumps, or raises StackOverflow when SP = STACK_DEPTH. -/
def Obligations.CallPushesOrOverflows : Prop :=
  ∀ (s : State) (nnn : Addr), decodesTo (0x2000 + nnn.toNat) (.call nnn) ∧
    (s.stackWf → s.sp < s.sizes.stackDepth →
      ∃ t, exec (.call nnn) s = .next t ∧ t.stack[s.sp]? = some s.pc ∧
        (∀ j, j ≠ s.sp → t.stack[j]? = s.stack[j]?) ∧ t.sp = s.sp + 1 ∧
        t.pc.toNat = nnn.toNat ∧ sameBytes s t ∧
        t = { s with stack := t.stack, sp := t.sp, pc := t.pc, result := some (.done false) }) ∧
    (s.sp = s.sizes.stackDepth → faultTaken (.call nnn) .stackOverflow s)

/-- R75: every family-0 word but 00E0 and 00EE is a SYS, and SYS is a no-op. -/
def Obligations.SysIsANoOp : Prop :=
  ∀ (s : State) (nnn : Addr),
    (nnn ≠ 0x0E0 → nnn ≠ 0x0EE → decodesTo nnn.toNat (.sys nnn)) ∧
    ∃ t, exec (.sys nnn) s = .next t ∧ sameBytes s t ∧ t = { s with result := some (.done false) }

/-- R76, R98: JP sets PC to NNN and JP V0 sets it to NNN + V0, which is not masked to 12 bits. -/
def Obligations.JumpsSetThePc : Prop :=
  ∀ (s : State) (nnn : Addr),
    decodesTo (0x1000 + nnn.toNat) (.jp nnn) ∧ pcEffect (.jp nnn) nnn.toNat s ∧
    decodesTo (0xB000 + nnn.toNat) (.jpV0 nnn) ∧ pcEffect (.jpV0 nnn) (nnn.toNat + (s.getV 0).toNat) s

/-- derived, R78, which the spec itself derives from R77, R74, R29 and R30: a return that pops the slot of a
call resumes at the word after the call, whatever ran in between with that slot in use. -/
def Obligations.CallThenReturnResumesAfterTheCall : Prop :=
  ∀ (s t u w : State) (nnn : Addr), s.stackWf → s.sp < s.sizes.stackDepth →
    s.fetch = some (encode (.call nnn)) → step s = .next t → StepsAbove s.sp t u → u.sp = s.sp + 1 →
    u.fetch = some (encode .ret) → step u = .next w →
    w.pc = s.pc + 2 ∧ w.sp = s.sp ∧ w.fault = none

/-- derived, R28, R29, R30: no instruction changes a slot below SP that stays in use. -/
def Obligations.SlotsInUseAreKept : Prop :=
  ∀ (i : Instr) (s t : State) (j : Nat), exec i s = .next t → j < s.sp → j < t.sp →
    t.stack[j]? = s.stack[j]?

/-! ### The skips -/

/-- R79, R80, R81, R82: SE and SNE skip exactly when the compared values are equal, or differ; the
register forms take a nonzero low nibble only under STRICT_LOW_NIBBLE = IGNORE. -/
def Obligations.ComparisonsSkip : Prop :=
  ∀ (s : State) (x y : Reg) (nn : Byte),
    decodesTo (0x3000 + 0x100 * x.val + nn.toNat) (.seImm x nn) ∧
    decodesTo (0x4000 + 0x100 * x.val + nn.toNat) (.sneImm x nn) ∧
    (∀ (p : Policy) (n : Nibble),
      let low := 0x100 * x.val + 0x10 * y.val + n.toNat
      let word5 := BitVec.ofNat 16 (0x5000 + low)
      let word9 := BitVec.ofNat 16 (0x9000 + low)
      (n = 0 ∨ p.strictLowNibble = .ignore →
        decode p word5 = .ok (.seReg x y) ∧ decode p word9 = .ok (.sneReg x y)) ∧
      (n ≠ 0 → p.strictLowNibble = .fault →
        decode p word5 = .error (.unknownOpcode word5) ∧
        decode p word9 = .error (.unknownOpcode word9))) ∧
    skipEffect (.seImm x nn) (s.getV x = nn) s ∧ skipEffect (.sneImm x nn) (s.getV x ≠ nn) s ∧
    skipEffect (.seReg x y) (s.getV x = s.getV y) s ∧
    skipEffect (.sneReg x y) (s.getV x ≠ s.getV y) s

/-- R101, R103, R104: SKP and SKNP skip when the key V[X] is down, or not; above 15 the index faults or
is masked. -/
def Obligations.KeyTestsSkipOrFault : Prop :=
  ∀ (s : State) (x : Reg),
    let k := (s.getV x).toNat
    let down := fun j : Nat => s.inputs.keys.getLsbD j = true
    decodesTo (0xE09E + 0x100 * x.val) (.skp x) ∧ decodesTo (0xE0A1 + 0x100 * x.val) (.sknp x) ∧
    (k ≤ 15 → skipEffect (.skp x) (down k) s ∧ skipEffect (.sknp x) (¬ down k) s) ∧
    (15 < k → s.policy.keyIndexRange = .mask →
      skipEffect (.skp x) (down (k % 16)) s ∧ skipEffect (.sknp x) (¬ down (k % 16)) s) ∧
    (15 < k → s.policy.keyIndexRange = .fault →
      faultEffect (.skp x) (.outOfBoundsAccess .keyIndex) (some k) s ∧
      faultEffect (.sknp x) (.outOfBoundsAccess .keyIndex) (some k) s)

/-- derived, R71: over a whole Step, a skip that completes advances PC by exactly 4 when its condition holds
and by exactly 2 when it does not, and does nothing more: no register, stack slot, byte or pixel
changes. -/
def Obligations.SkipAdvancesPcByFourOrTwo : Prop :=
  ∀ (s t : State) (op : Word) (i : Instr), s.fault = none → s.fetch = some op →
    decode s.policy op = .ok i → isSkip i → coreStep s = .next t → t.fault = none →
    (skipTaken i s → t.pc = s.pc + 4) ∧ (¬ skipTaken i s → t.pc = s.pc + 2) ∧
    t = { s with pc := t.pc, result := some (.done false) }

/-! ### Families 6, 7 and 8 -/

/-- R86, R87: LD and ADD immediate, with no flag, for every register, VF included. -/
def Obligations.ImmediatesLoadAndAdd : Prop :=
  ∀ (s : State) (x : Reg) (nn : Byte),
    decodesTo (0x6000 + 0x100 * x.val + nn.toNat) (.ldImm x nn) ∧
    regEffect (.ldImm x nn) x nn.toNat s ∧
    decodesTo (0x7000 + 0x100 * x.val + nn.toNat) (.addImm x nn) ∧
    regEffect (.addImm x nn) x (((s.getV x).toNat + nn.toNat) % 256) s

/-- R88, R89, R90, R91: assignment and the bitwise operations write V[X] and no flag. -/
def Obligations.MovesAndLogicWriteNoFlag : Prop :=
  ∀ (s : State) (x y : Reg), s.policy.vfAluOperand = .flagLast ∨ (x ≠ VF ∧ y ≠ VF) →
    let decodes := fun (n : Nat) (i : Instr) =>
      decode s.policy (BitVec.ofNat 16 (0x8000 + 0x100 * x.val + 0x10 * y.val + n)) = .ok i
    decodes 0 (.ldReg x y) ∧ decodes 1 (.orReg x y) ∧ decodes 2 (.andReg x y) ∧
    decodes 3 (.xorReg x y) ∧
    regEffect (.ldReg x y) x (s.getV y).toNat s ∧
    regEffect (.orReg x y) x ((s.getV x).toNat ||| (s.getV y).toNat) s ∧
    regEffect (.andReg x y) x ((s.getV x).toNat &&& (s.getV y).toNat) s ∧
    regEffect (.xorReg x y) x ((s.getV x).toNat ^^^ (s.getV y).toNat) s

/-- R92: ADD wraps modulo 256 and VF is the carry-out. -/
def Obligations.AddSetsCarry : Prop :=
  ∀ (s : State) (x y : Reg), s.policy.vfAluOperand = .flagLast ∨ (x ≠ VF ∧ y ≠ VF) →
    decode s.policy (BitVec.ofNat 16 (0x8004 + 0x100 * x.val + 0x10 * y.val)) = .ok (.addReg x y) ∧
    flagEffect (.addReg x y) x (((s.getV x).toNat + (s.getV y).toNat) % 256)
      (if 255 < (s.getV x).toNat + (s.getV y).toNat then 1 else 0) s

/-- R93, R95: SUB and SUBN wrap modulo 256 and VF is NOT-borrow. -/
def Obligations.SubtractionsSetNotBorrow : Prop :=
  ∀ (s : State) (x y : Reg), s.policy.vfAluOperand = .flagLast ∨ (x ≠ VF ∧ y ≠ VF) →
    let a := (s.getV x).toNat
    let b := (s.getV y).toNat
    decode s.policy (BitVec.ofNat 16 (0x8005 + 0x100 * x.val + 0x10 * y.val)) = .ok (.sub x y) ∧
    decode s.policy (BitVec.ofNat 16 (0x8007 + 0x100 * x.val + 0x10 * y.val)) = .ok (.subn x y) ∧
    flagEffect (.sub x y) x ((256 + a - b) % 256) (if b ≤ a then 1 else 0) s ∧
    flagEffect (.subn x y) x ((256 + b - a) % 256) (if a ≤ b then 1 else 0) s

/-- R94, R96: the shifts by one of the source SHIFT_SOURCE names, with the bit shifted out in VF. -/
def Obligations.ShiftsSetTheBitShiftedOut : Prop :=
  ∀ (s : State) (x y : Reg),
    s.policy.vfAluOperand = .flagLast ∨ (x ≠ VF ∧ (s.policy.shiftSource = .vy → y ≠ VF)) →
    let src := (s.getV (if s.policy.shiftSource = .vy then y else x)).toNat
    decode s.policy (BitVec.ofNat 16 (0x8006 + 0x100 * x.val + 0x10 * y.val)) = .ok (.shr x y) ∧
    decode s.policy (BitVec.ofNat 16 (0x800E + 0x100 * x.val + 0x10 * y.val)) = .ok (.shl x y) ∧
    flagEffect (.shr x y) x (src / 2) (src % 2) s ∧
    flagEffect (.shl x y) x (src * 2 % 256) (src / 128) s

/-- derived, R24: under VF_ALU_OPERAND = FAULT a family-8 opcode with X = F, or with Y = F where Y is read, raises
OutOfBoundsAccess(REGISTER, 15), and writes nothing. -/
def Obligations.VfOperandFaultsInFamilyEight : Prop :=
  ∀ (s : State) (x y : Reg), s.policy.vfAluOperand = .fault →
    (x = VF ∨ y = VF → ∀ i ∈ [Instr.ldReg x y, .orReg x y, .andReg x y, .xorReg x y, .addReg x y,
      .sub x y, .subn x y], faultEffect i (.outOfBoundsAccess .register) (some 15) s) ∧
    (x = VF ∨ (s.policy.shiftSource = .vy ∧ y = VF) → ∀ i ∈ [Instr.shr x y, .shl x y],
      faultEffect i (.outOfBoundsAccess .register) (some 15) s)

/-! ### Families A, C and D -/

/-- R97, R109: LD I sets I to NNN, and ADD I adds V[X] modulo 2^16 with no flag. -/
def Obligations.IndexIsLoadedAndAdded : Prop :=
  ∀ (s : State) (nnn : Addr) (x : Reg),
    decodesTo (0xA000 + nnn.toNat) (.ldI nnn) ∧ indexEffect (.ldI nnn) nnn.toNat s ∧
    decodesTo (0xF01E + 0x100 * x.val) (.addIVx x) ∧
    indexEffect (.addIVx x) ((s.index.toNat + (s.getV x).toNat) % 65536) s

/-- R99: RND writes the step's random byte under the mask, for every random byte; so every byte whose
1-bits are among the mask's can result. -/
def Obligations.RndIsAnyMaskedByte : Prop :=
  ∀ (s : State) (x : Reg) (nn : Byte),
    decodesTo (0xC000 + 0x100 * x.val + nn.toNat) (.rnd x nn) ∧
    regEffect (.rnd x nn) x (s.inputs.rnd8 &&& nn).toNat s ∧
    ∀ b : Byte, b &&& nn = b → ∃ r : Byte,
      regEffect (.rnd x nn) x b.toNat { s with inputs := { s.inputs with rnd8 := r } }

/-- R100: DRW whose reads are in range calls SetPixel once for each 1-bit of the sprite, so that a pixel ends
inverted where their number is odd; VF says whether one of the calls met a set pixel, which is one set before
or one called for twice; it returns redraw = true; no other register and no byte changes. Where a read
passes the end of memory it faults at the first address at or above MEM_SIZE. For every framebuffer of at
least one pixel. -/
def Obligations.DrawTogglesOncePerSpriteBit : Prop :=
  ∀ (s : State) (x y : Reg) (n : Nibble),
    decodesTo (0xD000 + 0x100 * x.val + 0x10 * y.val + n.toNat) (.drw x y n) ∧
    (n ≠ 0 → s.sizes.memSize < s.base + n.toNat →
      faultEffect (.drw x y n) (.outOfBoundsAccess .read) (some (max s.base s.sizes.memSize)) s) ∧
    (0 < s.sizes.fbW → 0 < s.sizes.fbH → n = 0 ∨ s.base + n.toNat ≤ s.sizes.memSize →
      drawEffect x y n s)

/-- derived, R100 and its corner case on N < FB_H and 8 < FB_W: where the framebuffer is at least as wide as
a sprite row and as high as the sprite, DRW inverts exactly the covered pixels, and sets VF to whether one
of them was set. -/
def Obligations.DrawInvertsCoveredPixels : Prop :=
  ∀ (s : State) (x y : Reg) (n : Nibble), 8 ≤ s.sizes.fbW → n.toNat ≤ s.sizes.fbH →
    n = 0 ∨ s.base + n.toNat ≤ s.sizes.memSize → ∃ t, exec (.drw x y n) s = .next t ∧
      (∀ px py, spriteCount x y n s px py ≤ 1 ∧
        (spriteCovers x y n s px py → t.pixel px py = !s.pixel px py) ∧
        (¬ spriteCovers x y n s px py → t.pixel px py = s.pixel px py)) ∧
      ((∃ px py, spriteCovers x y n s px py ∧ s.pixel px py = true) → t.getV VF = 1) ∧
      ((¬ ∃ px py, spriteCovers x y n s px py ∧ s.pixel px py = true) → t.getV VF = 0) ∧
      sameRegsBut (· = VF) s t ∧ sameBytes s t ∧
      t = { s with v := t.v, fb := t.fb, result := some (.done true) }

/-- derived, R100 (95_test_vectors.md L1-8; for a framebuffer without pixels log 14): drawing the same sprite
twice at the same place restores every pixel, and so the framebuffer in its canonical form; on a blank one
at least as wide and high as the sprite the first draw reports no collision, and the second reports one
exactly when the sprite has a 1-bit. -/
def Obligations.DrawingTwiceRestoresTheFramebuffer : Prop :=
  ∀ (s t u : State) (x y : Reg) (n : Nibble), x ≠ VF → y ≠ VF →
    n = 0 ∨ s.base + n.toNat ≤ s.sizes.memSize →
    exec (.drw x y n) s = .next t → exec (.drw x y n) t = .next u →
    (∀ px py, u.pixel px py = s.pixel px py) ∧
    (0 < s.sizes.fbW → 0 < s.sizes.fbH → s.fbWf → u.fb = s.fb) ∧
    (s.blank → 8 ≤ s.sizes.fbW → n.toNat ≤ s.sizes.fbH → t.getV VF = 0 ∧
      (u.getV VF = 1 ↔ ∃ r < n.toNat, s.byteAt (s.base + r) ≠ 0))

/-! ### Families E and F -/

/-- R105, R106, R107: FX07 reads DT, FX15 writes DT, FX18 writes ST. -/
def Obligations.TimersAreReadAndSet : Prop :=
  ∀ (s : State) (x : Reg),
    decodesTo (0xF007 + 0x100 * x.val) (.ldVxDt x) ∧ decodesTo (0xF015 + 0x100 * x.val) (.ldDtVx x) ∧
    decodesTo (0xF018 + 0x100 * x.val) (.ldStVx x) ∧ regEffect (.ldVxDt x) x s.dt.toNat s ∧
    (∃ t, exec (.ldDtVx x) s = .next t ∧ t.dt = s.getV x ∧ sameBytes s t ∧
      t = { s with dt := t.dt, result := some (.done false) }) ∧
    (∃ t, exec (.ldStVx x) s = .next t ∧ t.st = s.getV x ∧ sameBytes s t ∧
      t = { s with st := t.st, result := some (.done false) })

/-- R108: FX0A stalls while no key is down; otherwise it stores a key that is down, the lowest one under
LOWEST, and under ANY each of them can be the one stored. -/
def Obligations.KeyWaitStallsOrStoresAKey : Prop :=
  ∀ (s : State) (x : Reg),
    let down := fun j : Nat => s.inputs.keys.getLsbD j = true
    decodesTo (0xF00A + 0x100 * x.val) (.ldVxK x) ∧
    ((∀ k, k < 16 → ¬ down k) →
      exec (.ldVxK x) s = .next { s with pc := s.pc - 2, result := some .stall }) ∧
    ((∃ k, k < 16 ∧ down k) → ∃ k, k < 16 ∧ down k ∧ regEffect (.ldVxK x) x k s ∧
      (s.policy.keywaitPick = .lowest → ∀ j, j < k → ¬ down j)) ∧
    (s.policy.keywaitPick = .any → ∀ k : Fin 16, down k.val →
      regEffect (.ldVxK x) x k.val { s with inputs := { s.inputs with keyPick := k } })

/-- R110: FX29 points I at the digit's glyph, whose address fits in I; above 15 the digit faults or is
masked. -/
def Obligations.GlyphAddressOrFault : Prop :=
  ∀ (s : State) (x : Reg),
    let d := (s.getV x).toNat
    let glyph := fun k => s.sizes.fontBase + s.sizes.glyphBytes * k
    decodesTo (0xF029 + 0x100 * x.val) (.ldFVx x) ∧
    (d ≤ 15 → glyph d < 65536 → indexEffect (.ldFVx x) (glyph d) s) ∧
    (15 < d → s.policy.fontDigitRange = .mask → glyph (d % 16) < 65536 →
      indexEffect (.ldFVx x) (glyph (d % 16)) s) ∧
    (15 < d → s.policy.fontDigitRange = .fault →
      faultEffect (.ldFVx x) (.outOfBoundsAccess .fontDigit) (some d) s)

/-- R111: FX33 stores the decimal digits, hundreds at I, where all three bytes may be written. Else it
faults at the lowest address that may not be, WRITE at or above MEM_SIZE and FONT_WRITE in the protected
glyph table, and stores nothing. -/
def Obligations.BcdDigitsAreStored : Prop :=
  ∀ (s : State) (x : Reg),
    decodesTo (0xF033 + 0x100 * x.val) (.ldBVx x) ∧
    ((∀ k < 3, s.writable (s.base + k)) →
      ∃ t, exec (.ldBVx x) s = .next t ∧
        (t.byteAt s.base).toNat = (s.getV x).toNat / 100 ∧
        (t.byteAt (s.base + 1)).toNat = (s.getV x).toNat / 10 % 10 ∧
        (t.byteAt (s.base + 2)).toNat = (s.getV x).toNat % 10 ∧
        sameBytesOutside s.base 3 s t ∧
        t = { s with mem := t.mem, result := some (.done false) }) ∧
    ∀ k < 3, (∀ j < k, s.writable (s.base + j)) → ¬ s.writable (s.base + k) →
      faultEffect (.ldBVx x) (s.writeFault (s.base + k)) (some (s.base + k)) s

/-- R112: FX55 stores V0..VX from I on, where every byte may be written; I moves only under X_PLUS_1.
Else it faults at the lowest address that may not be, and stores nothing. -/
def Obligations.RegistersAreDumped : Prop :=
  ∀ (s : State) (x : Reg),
    decodesTo (0xF055 + 0x100 * x.val) (.ldMemVx x) ∧
    ((∀ k < x.val + 1, s.writable (s.base + k)) →
      ∃ t, exec (.ldMemVx x) s = .next t ∧
        (∀ r : Reg, r ≤ x → t.byteAt (s.base + r.val) = s.getV r) ∧
        sameBytesOutside s.base (x.val + 1) s t ∧
        (s.policy.ldstIncrementI = .none → t.index = s.index) ∧
        (s.policy.ldstIncrementI = .xPlus1 →
          t.index.toNat = (s.index.toNat + x.val + 1) % 65536) ∧
        t = { s with mem := t.mem, index := t.index, result := some (.done false) }) ∧
    ∀ k < x.val + 1, (∀ j < k, s.writable (s.base + j)) → ¬ s.writable (s.base + k) →
      faultEffect (.ldMemVx x) (s.writeFault (s.base + k)) (some (s.base + k)) s

/-- R113: FX65 loads V0..VX from I on, VF too when X = F; I moves only under X_PLUS_1. Where a read passes
the end of memory it faults at the first address at or above MEM_SIZE and loads nothing. -/
def Obligations.RegistersAreLoaded : Prop :=
  ∀ (s : State) (x : Reg),
    decodesTo (0xF065 + 0x100 * x.val) (.ldVxMem x) ∧
    (s.base + (x.val + 1) ≤ s.sizes.memSize →
      ∃ t, exec (.ldVxMem x) s = .next t ∧
        (∀ r : Reg, r ≤ x → t.getV r = s.byteAt (s.base + r.val)) ∧
        sameRegsBut (· ≤ x) s t ∧ sameBytes s t ∧
        (s.policy.ldstIncrementI = .none → t.index = s.index) ∧
        (s.policy.ldstIncrementI = .xPlus1 →
          t.index.toNat = (s.index.toNat + x.val + 1) % 65536) ∧
        t = { s with v := t.v, index := t.index, result := some (.done false) }) ∧
    (s.sizes.memSize < s.base + (x.val + 1) →
      faultEffect (.ldVxMem x) (.outOfBoundsAccess .read) (some (max s.base s.sizes.memSize)) s)

/-- derived, R55: a store into code is what the next fetch reads. After FX55 and after FX33 the bytes at PC
and PC + 1 are each the stored byte, where the store reached it, and else the byte from before. -/
def Obligations.StoredBytesAreFetched : Prop :=
  ∀ (s t : State) (x : Reg), t.fault = none → fetchRefused s.sizes s.policy s.pc.toNat = false →
    let v := (s.getV x).toNat
    let pc := s.pc.toNat
    let dumped := fun a => if s.base ≤ a ∧ a ≤ s.base + x.val then s.getV (Fin.ofNat 16 (a - s.base))
      else s.byteAt a
    let digit := fun a => if a = s.base then BitVec.ofNat 8 (v / 100)
      else if a = s.base + 1 then BitVec.ofNat 8 (v / 10 % 10)
      else if a = s.base + 2 then BitVec.ofNat 8 (v % 10) else s.byteAt a
    (exec (.ldMemVx x) s = .next t → t.fetch = some (wordOfBytes (dumped pc) (dumped (pc + 1)))) ∧
    (exec (.ldBVx x) s = .next t → t.fetch = some (wordOfBytes (digit pc) (digit (pc + 1))))

/-! ### Whole-machine rules -/

/-- derived, R21: each instruction writes only the V registers its row of the table names, and reads only those:
where two states differ only in one register that it does not read, it ends alike but for that
register. -/
def Obligations.VRegistersHaveOnlyTheirReadersAndWriters : Prop :=
  ∀ (i : Instr) (s t : State), exec i s = .next t →
    sameRegsBut (writesV i) s t ∧
    ∀ (u : State) (r : Reg) (b : Byte), ¬ readsV s.policy i r → exec i (s.setV r b) = .next u →
      sameRegsBut (· = r) t u ∧ u = { t with v := u.v }

/-- derived, R25, R26, R28, R31, R36, R39: I, PC, the call stack, the timers, the framebuffer and memory
have only the writers their rules name; a fault puts PC back to the instruction's address. -/
def Obligations.EachElementHasOnlyItsWriters : Prop :=
  ∀ (i : Instr) (s t : State), s.fault = none → exec i s = .next t →
    (¬ writesIndex s.policy i → t.index = s.index) ∧
    (¬ writesPc i → t.fault = none → t.pc = s.pc) ∧
    (t.fault ≠ none → t.pc = s.pc - 2) ∧
    ((∀ nnn, i ≠ .call nnn) → t.stack = s.stack) ∧
    ((∀ nnn, i ≠ .call nnn) → i ≠ .ret → t.sp = s.sp) ∧
    ((∀ x, i ≠ .ldDtVx x) → t.dt = s.dt) ∧ ((∀ x, i ≠ .ldStVx x) → t.st = s.st) ∧
    (i ≠ .cls → (∀ x y n, i ≠ .drw x y n) → t.fb = s.fb) ∧
    ((∀ x, i ≠ .ldBVx x) → (∀ x, i ≠ .ldMemVx x) → sameBytes s t)

/-- derived, R31: no instruction reads ST: two states that differ only in ST end alike but for ST, and FX18
leaves them equal. -/
def Obligations.SoundTimerIsNeverRead : Prop :=
  ∀ (i : Instr) (s t u : State) (b : Byte), exec i s = .next t →
    exec i { s with st := b } = .next u →
    u = { t with st := u.st } ∧ (u.st = t.st ∨ u.st = b) ∧ ((∃ x, i = .ldStVx x) → u = t)

/-- derived, R125, R126: the keys are read by EX9E, EXA1 and FX0A only, and the random byte by CXNN
only: where two states differ only in an input it does not read, an instruction ends alike but for that
input. -/
def Obligations.ExternalInputsHaveOnlyTheirReaders : Prop :=
  (∀ (i : Instr) (s t u : State) (keys : BitVec 16) (keyPick : Fin 16),
    (∀ x, i ≠ .skp x) → (∀ x, i ≠ .sknp x) → (∀ x, i ≠ .ldVxK x) → exec i s = .next t →
    exec i { s with inputs := { s.inputs with keys := keys, keyPick := keyPick } } = .next u →
    u = { t with inputs := { s.inputs with keys := keys, keyPick := keyPick } }) ∧
  ∀ (i : Instr) (s t u : State) (rnd8 : Byte), (∀ x nn, i ≠ .rnd x nn) → exec i s = .next t →
    exec i { s with inputs := { s.inputs with rnd8 := rnd8 } } = .next u →
    u = { t with inputs := { s.inputs with rnd8 := rnd8 } }

/-- derived, R135 (log 3): where a run has ended, the core keeps executing the self-jump: every further step
leaves PC and all else as they are but the timers, which the host's ticks move, the result, and the inputs,
which are drawn anew with their counter; and the run has still ended. The ticks and the draw are the model's
form of what the host does between steps. -/
def Obligations.EndedRunKeepsJumpingToItself : Prop :=
  ∀ s : State, s.runEnded → ∃ t, step s = .next t ∧ t.runEnded ∧
    t = { s.applyTicks with result := some (.done false) }.drawInputs

/-! ### Sizes to which the spec gives no meaning -/

/-- derived, R100 (log 14): for FB_W = 0 or FB_H = 0 DRW whose reads are in range completes with the effect of
DrawTogglesOncePerSpriteBit, where x mod 0 in a coordinate is x. That x mod 0 is x is the model's choice,
since the spec gives it no meaning. -/
def Obligations.DrawOnAFramebufferWithoutPixels : Prop :=
  ∀ (s : State) (x y : Reg) (n : Nibble), s.sizes.fbW = 0 ∨ s.sizes.fbH = 0 →
    n = 0 ∨ s.base + n.toNat ≤ s.sizes.memSize → drawEffect x y n s
end

