-- ==== Sys2Proof/Laws/Decode.lean ====
section
/-! SUPPORT. The fields of the formats (30_encoding.md R61, R62): each field of a word written in a
format is the field it was written with. -/

namespace Sys2Proof

@[simp] theorem regOfBits_bitsOfReg (x : Reg) : regOfBits (bitsOfReg x) = x := by
  apply Fin.ext
  simp [regOfBits, bitsOfReg]

@[simp] theorem bitsOfReg_regOfBits (b : Nibble) : bitsOfReg (regOfBits b) = b := by
  simp [regOfBits, bitsOfReg]

@[simp] theorem opF_fmtA (f : Nibble) (nnn : Addr) : opF (fmtA f nnn) = f := by
  unfold opF fmtA; ext i hi; interval_cases i <;> simp

@[simp] theorem opNNN_fmtA (f : Nibble) (nnn : Addr) : opNNN (fmtA f nnn) = nnn := by
  unfold opNNN fmtA; ext i hi; interval_cases i <;> simp

@[simp] theorem opF_fmtXI (f : Nibble) (x : Reg) (nn : Byte) : opF (fmtXI f x nn) = f := by
  unfold opF fmtXI; ext i hi; interval_cases i <;> simp

@[simp] theorem opX_fmtXI (f : Nibble) (x : Reg) (nn : Byte) : opX (fmtXI f x nn) = x := by
  have : (fmtXI f x nn).extractLsb' 8 4 = bitsOfReg x := by
    unfold fmtXI; ext i hi; interval_cases i <;> simp
  rw [opX, this, regOfBits_bitsOfReg]

@[simp] theorem opNN_fmtXI (f : Nibble) (x : Reg) (nn : Byte) : opNN (fmtXI f x nn) = nn := by
  unfold opNN fmtXI; ext i hi; interval_cases i <;> simp

@[simp] theorem opF_fmtXYN (f : Nibble) (x y : Reg) (n : Nibble) : opF (fmtXYN f x y n) = f := by
  unfold opF fmtXYN; ext i hi; interval_cases i <;> simp

@[simp] theorem opX_fmtXYN (f : Nibble) (x y : Reg) (n : Nibble) : opX (fmtXYN f x y n) = x := by
  have : (fmtXYN f x y n).extractLsb' 8 4 = bitsOfReg x := by
    unfold fmtXYN; ext i hi; interval_cases i <;> simp
  rw [opX, this, regOfBits_bitsOfReg]

@[simp] theorem opY_fmtXYN (f : Nibble) (x y : Reg) (n : Nibble) : opY (fmtXYN f x y n) = y := by
  have : (fmtXYN f x y n).extractLsb' 4 4 = bitsOfReg y := by
    unfold fmtXYN; ext i hi; interval_cases i <;> simp
  rw [opY, this, regOfBits_bitsOfReg]

@[simp] theorem opN_fmtXYN (f : Nibble) (x y : Reg) (n : Nibble) : opN (fmtXYN f x y n) = n := by
  unfold opN fmtXYN; ext i hi; interval_cases i <;> simp

/-- A word is its four nibbles. -/
theorem fmtXYN_fields (op : Word) : fmtXYN (opF op) (opX op) (opY op) (opN op) = op := by
  unfold fmtXYN opX opY
  simp only [bitsOfReg_regOfBits]
  unfold opF opN; ext i hi; interval_cases i <;> simp

/-- A word is its family nibble, its register nibble and its low byte. -/
theorem fmtXI_fields (op : Word) : fmtXI (opF op) (opX op) (opNN op) = op := by
  unfold fmtXI opX
  simp only [bitsOfReg_regOfBits]
  unfold opF opNN; ext i hi; interval_cases i <;> simp

/-- A word is its family nibble and its low 12 bits. -/
theorem fmtA_fields (op : Word) : fmtA (opF op) (opNNN op) = op := by
  unfold fmtA opF opNNN; ext i hi; interval_cases i <;> simp

/-! ### The formats as numbers -/

theorem fmtA_toNat (f : Nibble) (nnn : Addr) : (fmtA f nnn).toNat = 0x1000 * f.toNat + nnn.toNat := by
  have hf := f.isLt
  have hn := nnn.isLt
  have : (fmtA f nnn).toNat = f.toNat <<< 12 ||| nnn.toNat := by
    simp only [fmtA, BitVec.toNat_or, BitVec.toNat_shiftLeft, BitVec.truncate_eq_setWidth,
      BitVec.toNat_setWidth]
    rw [Nat.mod_eq_of_lt (by omega : f.toNat < 2 ^ 16), Nat.mod_eq_of_lt (by omega : nnn.toNat < 2 ^ 16),
      Nat.mod_eq_of_lt (by rw [Nat.shiftLeft_eq]; omega)]
  rw [this, ← Nat.shiftLeft_add_eq_or_of_lt hn, Nat.shiftLeft_eq]
  omega

theorem fmtXI_toNat (f : Nibble) (x : Reg) (nn : Byte) :
    (fmtXI f x nn).toNat = 0x1000 * f.toNat + 0x100 * x.val + nn.toNat := by
  have hf := f.isLt
  have hn := nn.isLt
  have hx := x.isLt
  have hb : (bitsOfReg x).toNat = x.val := by simp [bitsOfReg]
  have : (fmtXI f x nn).toNat = (f.toNat <<< 12 ||| x.val <<< 8) ||| nn.toNat := by
    simp only [fmtXI, BitVec.toNat_or, BitVec.toNat_shiftLeft, BitVec.truncate_eq_setWidth,
      BitVec.toNat_setWidth, hb]
    rw [Nat.mod_eq_of_lt (by omega : f.toNat < 2 ^ 16), Nat.mod_eq_of_lt (by omega : nn.toNat < 2 ^ 16),
      Nat.mod_eq_of_lt (by omega : x.val < 2 ^ 16), Nat.mod_eq_of_lt (by rw [Nat.shiftLeft_eq]; omega),
      Nat.mod_eq_of_lt (by rw [Nat.shiftLeft_eq]; omega)]
  have h1 : f.toNat <<< 12 ||| x.val <<< 8 = (0x10 * f.toNat + x.val) <<< 8 := by
    rw [← Nat.shiftLeft_add_eq_or_of_lt (by rw [Nat.shiftLeft_eq]; omega)]
    simp only [Nat.shiftLeft_eq]; omega
  rw [this, h1, ← Nat.shiftLeft_add_eq_or_of_lt hn, Nat.shiftLeft_eq]
  omega

theorem fmtXYN_eq_fmtXI (f : Nibble) (x y : Reg) (n : Nibble) :
    fmtXYN f x y n = fmtXI f x ((bitsOfReg y).zeroExtend 8 <<< 4 ||| n.zeroExtend 8) := by
  unfold fmtXYN fmtXI; ext i hi; interval_cases i <;> simp

theorem fmtXYN_toNat (f : Nibble) (x y : Reg) (n : Nibble) :
    (fmtXYN f x y n).toNat = 0x1000 * f.toNat + 0x100 * x.val + 0x10 * y.val + n.toNat := by
  have hy := y.isLt
  have hn := n.isLt
  have hb : (bitsOfReg y).toNat = y.val := by simp [bitsOfReg]
  have : ((bitsOfReg y).zeroExtend 8 <<< 4 ||| n.zeroExtend 8).toNat = y.val <<< 4 ||| n.toNat := by
    simp only [BitVec.toNat_or, BitVec.toNat_shiftLeft, BitVec.truncate_eq_setWidth,
      BitVec.toNat_setWidth, hb]
    rw [Nat.mod_eq_of_lt (by omega : n.toNat < 2 ^ 8), Nat.mod_eq_of_lt (by omega : y.val < 2 ^ 8),
      Nat.mod_eq_of_lt (by rw [Nat.shiftLeft_eq]; omega)]
  rw [fmtXYN_eq_fmtXI, fmtXI_toNat, this, ← Nat.shiftLeft_add_eq_or_of_lt hn, Nat.shiftLeft_eq]
  omega

/-- The number of a word written in a format, as a word. -/
theorem ofNat_fmtA (f : Nibble) (nnn : Addr) {k : Nat} (h : k = 0x1000 * f.toNat + nnn.toNat) :
    BitVec.ofNat 16 k = fmtA f nnn := by
  rw [h, ← fmtA_toNat, BitVec.ofNat_toNat, BitVec.setWidth_eq]

theorem ofNat_fmtXI (f : Nibble) (x : Reg) (nn : Byte) {k : Nat}
    (h : k = 0x1000 * f.toNat + 0x100 * x.val + nn.toNat) : BitVec.ofNat 16 k = fmtXI f x nn := by
  rw [h, ← fmtXI_toNat, BitVec.ofNat_toNat, BitVec.setWidth_eq]

theorem ofNat_fmtXYN (f : Nibble) (x y : Reg) (n : Nibble) {k : Nat}
    (h : k = 0x1000 * f.toNat + 0x100 * x.val + 0x10 * y.val + n.toNat) :
    BitVec.ofNat 16 k = fmtXYN f x y n := by
  rw [h, ← fmtXYN_toNat, BitVec.ofNat_toNat, BitVec.setWidth_eq]

/-- The two bytes of a word, put together again, are the word (R46). -/
@[simp] theorem wordOfBytes_bytes (op : Word) : wordOfBytes (hiByte op) (loByte op) = op := by
  unfold wordOfBytes hiByte loByte; ext i hi; interval_cases i <;> simp

/-- The decoder answers an instruction exactly where the opcode map has a line (R65, R66). -/
theorem decode_ok_iff (p : Policy) (op : Word) (i : Instr) :
    decode p op = .ok i ↔ decodeFamily p op = some i := by
  unfold decode; split <;> simp_all

theorem decode_error_iff (p : Policy) (op : Word) (e : DecodeError) :
    decode p op = .error e ↔ decodeFamily p op = none ∧ e = .unknownOpcode op := by
  unfold decode
  split
  · rename_i i h; simp [h]
  · rename_i h; simp [h, eq_comm]

end Sys2Proof
end

