-- ==== Sys2Proof/Laws/State.lean ====
section
/-! SUPPORT. One lemma for each field of State under each named update, and the reads of a register
after a register write, so that no later proof unfolds a record update. -/

namespace Sys2Proof.Machine

variable (s : State)

/-! ### setV -/

@[simp] theorem State.setV_index (x : Reg) (b : Byte) : (s.setV x b).index = s.index := rfl
@[simp] theorem State.setV_pc (x : Reg) (b : Byte) : (s.setV x b).pc = s.pc := rfl
@[simp] theorem State.setV_stack (x : Reg) (b : Byte) : (s.setV x b).stack = s.stack := rfl
@[simp] theorem State.setV_sp (x : Reg) (b : Byte) : (s.setV x b).sp = s.sp := rfl
@[simp] theorem State.setV_dt (x : Reg) (b : Byte) : (s.setV x b).dt = s.dt := rfl
@[simp] theorem State.setV_st (x : Reg) (b : Byte) : (s.setV x b).st = s.st := rfl
@[simp] theorem State.setV_mem (x : Reg) (b : Byte) : (s.setV x b).mem = s.mem := rfl
@[simp] theorem State.setV_fault (x : Reg) (b : Byte) : (s.setV x b).fault = s.fault := rfl
@[simp] theorem State.setV_fb (x : Reg) (b : Byte) : (s.setV x b).fb = s.fb := rfl
@[simp] theorem State.setV_result (x : Reg) (b : Byte) : (s.setV x b).result = s.result := rfl
@[simp] theorem State.setV_inputs (x : Reg) (b : Byte) : (s.setV x b).inputs = s.inputs := rfl
@[simp] theorem State.setV_draws (x : Reg) (b : Byte) : (s.setV x b).draws = s.draws := rfl
@[simp] theorem State.setV_sizes (x : Reg) (b : Byte) : (s.setV x b).sizes = s.sizes := rfl
@[simp] theorem State.setV_policy (x : Reg) (b : Byte) : (s.setV x b).policy = s.policy := rfl

/-! ### setResultFlag -/

@[simp] theorem State.setResultFlag_index (x : Reg) (b f : Byte) : (s.setResultFlag x b f).index = s.index := rfl
@[simp] theorem State.setResultFlag_pc (x : Reg) (b f : Byte) : (s.setResultFlag x b f).pc = s.pc := rfl
@[simp] theorem State.setResultFlag_stack (x : Reg) (b f : Byte) : (s.setResultFlag x b f).stack = s.stack := rfl
@[simp] theorem State.setResultFlag_sp (x : Reg) (b f : Byte) : (s.setResultFlag x b f).sp = s.sp := rfl
@[simp] theorem State.setResultFlag_dt (x : Reg) (b f : Byte) : (s.setResultFlag x b f).dt = s.dt := rfl
@[simp] theorem State.setResultFlag_st (x : Reg) (b f : Byte) : (s.setResultFlag x b f).st = s.st := rfl
@[simp] theorem State.setResultFlag_mem (x : Reg) (b f : Byte) : (s.setResultFlag x b f).mem = s.mem := rfl
@[simp] theorem State.setResultFlag_fault (x : Reg) (b f : Byte) : (s.setResultFlag x b f).fault = s.fault := rfl
@[simp] theorem State.setResultFlag_fb (x : Reg) (b f : Byte) : (s.setResultFlag x b f).fb = s.fb := rfl
@[simp] theorem State.setResultFlag_result (x : Reg) (b f : Byte) : (s.setResultFlag x b f).result = s.result := rfl
@[simp] theorem State.setResultFlag_inputs (x : Reg) (b f : Byte) : (s.setResultFlag x b f).inputs = s.inputs := rfl
@[simp] theorem State.setResultFlag_draws (x : Reg) (b f : Byte) : (s.setResultFlag x b f).draws = s.draws := rfl
@[simp] theorem State.setResultFlag_sizes (x : Reg) (b f : Byte) : (s.setResultFlag x b f).sizes = s.sizes := rfl
@[simp] theorem State.setResultFlag_policy (x : Reg) (b f : Byte) : (s.setResultFlag x b f).policy = s.policy := rfl

/-! ### storeByte -/

@[simp] theorem State.storeByte_v (a : Nat) (b : Byte) : (s.storeByte a b).v = s.v := rfl
@[simp] theorem State.storeByte_index (a : Nat) (b : Byte) : (s.storeByte a b).index = s.index := rfl
@[simp] theorem State.storeByte_pc (a : Nat) (b : Byte) : (s.storeByte a b).pc = s.pc := rfl
@[simp] theorem State.storeByte_stack (a : Nat) (b : Byte) : (s.storeByte a b).stack = s.stack := rfl
@[simp] theorem State.storeByte_sp (a : Nat) (b : Byte) : (s.storeByte a b).sp = s.sp := rfl
@[simp] theorem State.storeByte_dt (a : Nat) (b : Byte) : (s.storeByte a b).dt = s.dt := rfl
@[simp] theorem State.storeByte_st (a : Nat) (b : Byte) : (s.storeByte a b).st = s.st := rfl
@[simp] theorem State.storeByte_fault (a : Nat) (b : Byte) : (s.storeByte a b).fault = s.fault := rfl
@[simp] theorem State.storeByte_fb (a : Nat) (b : Byte) : (s.storeByte a b).fb = s.fb := rfl
@[simp] theorem State.storeByte_result (a : Nat) (b : Byte) : (s.storeByte a b).result = s.result := rfl
@[simp] theorem State.storeByte_inputs (a : Nat) (b : Byte) : (s.storeByte a b).inputs = s.inputs := rfl
@[simp] theorem State.storeByte_draws (a : Nat) (b : Byte) : (s.storeByte a b).draws = s.draws := rfl
@[simp] theorem State.storeByte_sizes (a : Nat) (b : Byte) : (s.storeByte a b).sizes = s.sizes := rfl
@[simp] theorem State.storeByte_policy (a : Nat) (b : Byte) : (s.storeByte a b).policy = s.policy := rfl

/-! ### skipIf -/

@[simp] theorem State.skipIf_v (c : Bool) : (s.skipIf c).v = s.v := by cases c <;> rfl
@[simp] theorem State.skipIf_index (c : Bool) : (s.skipIf c).index = s.index := by cases c <;> rfl
@[simp] theorem State.skipIf_stack (c : Bool) : (s.skipIf c).stack = s.stack := by cases c <;> rfl
@[simp] theorem State.skipIf_sp (c : Bool) : (s.skipIf c).sp = s.sp := by cases c <;> rfl
@[simp] theorem State.skipIf_dt (c : Bool) : (s.skipIf c).dt = s.dt := by cases c <;> rfl
@[simp] theorem State.skipIf_st (c : Bool) : (s.skipIf c).st = s.st := by cases c <;> rfl
@[simp] theorem State.skipIf_mem (c : Bool) : (s.skipIf c).mem = s.mem := by cases c <;> rfl
@[simp] theorem State.skipIf_fault (c : Bool) : (s.skipIf c).fault = s.fault := by cases c <;> rfl
@[simp] theorem State.skipIf_fb (c : Bool) : (s.skipIf c).fb = s.fb := by cases c <;> rfl
@[simp] theorem State.skipIf_result (c : Bool) : (s.skipIf c).result = s.result := by cases c <;> rfl
@[simp] theorem State.skipIf_inputs (c : Bool) : (s.skipIf c).inputs = s.inputs := by cases c <;> rfl
@[simp] theorem State.skipIf_draws (c : Bool) : (s.skipIf c).draws = s.draws := by cases c <;> rfl
@[simp] theorem State.skipIf_sizes (c : Bool) : (s.skipIf c).sizes = s.sizes := by cases c <;> rfl
@[simp] theorem State.skipIf_policy (c : Bool) : (s.skipIf c).policy = s.policy := by cases c <;> rfl

/-! ### advance -/

@[simp] theorem State.advance_v : (s.advance).v = s.v := rfl
@[simp] theorem State.advance_index : (s.advance).index = s.index := rfl
@[simp] theorem State.advance_stack : (s.advance).stack = s.stack := rfl
@[simp] theorem State.advance_sp : (s.advance).sp = s.sp := rfl
@[simp] theorem State.advance_dt : (s.advance).dt = s.dt := rfl
@[simp] theorem State.advance_st : (s.advance).st = s.st := rfl
@[simp] theorem State.advance_mem : (s.advance).mem = s.mem := rfl
@[simp] theorem State.advance_fault : (s.advance).fault = s.fault := rfl
@[simp] theorem State.advance_fb : (s.advance).fb = s.fb := rfl
@[simp] theorem State.advance_result : (s.advance).result = s.result := rfl
@[simp] theorem State.advance_inputs : (s.advance).inputs = s.inputs := rfl
@[simp] theorem State.advance_draws : (s.advance).draws = s.draws := rfl
@[simp] theorem State.advance_sizes : (s.advance).sizes = s.sizes := rfl
@[simp] theorem State.advance_policy : (s.advance).policy = s.policy := rfl

/-! ### takeFault -/

@[simp] theorem State.takeFault_v (r : FaultRecord) : (s.takeFault r).v = s.v := rfl
@[simp] theorem State.takeFault_index (r : FaultRecord) : (s.takeFault r).index = s.index := rfl
@[simp] theorem State.takeFault_stack (r : FaultRecord) : (s.takeFault r).stack = s.stack := rfl
@[simp] theorem State.takeFault_sp (r : FaultRecord) : (s.takeFault r).sp = s.sp := rfl
@[simp] theorem State.takeFault_dt (r : FaultRecord) : (s.takeFault r).dt = s.dt := rfl
@[simp] theorem State.takeFault_st (r : FaultRecord) : (s.takeFault r).st = s.st := rfl
@[simp] theorem State.takeFault_mem (r : FaultRecord) : (s.takeFault r).mem = s.mem := rfl
@[simp] theorem State.takeFault_fb (r : FaultRecord) : (s.takeFault r).fb = s.fb := rfl
@[simp] theorem State.takeFault_inputs (r : FaultRecord) : (s.takeFault r).inputs = s.inputs := rfl
@[simp] theorem State.takeFault_draws (r : FaultRecord) : (s.takeFault r).draws = s.draws := rfl
@[simp] theorem State.takeFault_sizes (r : FaultRecord) : (s.takeFault r).sizes = s.sizes := rfl
@[simp] theorem State.takeFault_policy (r : FaultRecord) : (s.takeFault r).policy = s.policy := rfl

/-! ### completed -/

@[simp] theorem State.completed_v (b : Bool) : (s.completed b).v = s.v := rfl
@[simp] theorem State.completed_index (b : Bool) : (s.completed b).index = s.index := rfl
@[simp] theorem State.completed_pc (b : Bool) : (s.completed b).pc = s.pc := rfl
@[simp] theorem State.completed_stack (b : Bool) : (s.completed b).stack = s.stack := rfl
@[simp] theorem State.completed_sp (b : Bool) : (s.completed b).sp = s.sp := rfl
@[simp] theorem State.completed_dt (b : Bool) : (s.completed b).dt = s.dt := rfl
@[simp] theorem State.completed_st (b : Bool) : (s.completed b).st = s.st := rfl
@[simp] theorem State.completed_mem (b : Bool) : (s.completed b).mem = s.mem := rfl
@[simp] theorem State.completed_fault (b : Bool) : (s.completed b).fault = s.fault := rfl
@[simp] theorem State.completed_fb (b : Bool) : (s.completed b).fb = s.fb := rfl
@[simp] theorem State.completed_inputs (b : Bool) : (s.completed b).inputs = s.inputs := rfl
@[simp] theorem State.completed_draws (b : Bool) : (s.completed b).draws = s.draws := rfl
@[simp] theorem State.completed_sizes (b : Bool) : (s.completed b).sizes = s.sizes := rfl
@[simp] theorem State.completed_policy (b : Bool) : (s.completed b).policy = s.policy := rfl

/-! ### stalled -/

@[simp] theorem State.stalled_v : (s.stalled).v = s.v := rfl
@[simp] theorem State.stalled_index : (s.stalled).index = s.index := rfl
@[simp] theorem State.stalled_stack : (s.stalled).stack = s.stack := rfl
@[simp] theorem State.stalled_sp : (s.stalled).sp = s.sp := rfl
@[simp] theorem State.stalled_dt : (s.stalled).dt = s.dt := rfl
@[simp] theorem State.stalled_st : (s.stalled).st = s.st := rfl
@[simp] theorem State.stalled_mem : (s.stalled).mem = s.mem := rfl
@[simp] theorem State.stalled_fault : (s.stalled).fault = s.fault := rfl
@[simp] theorem State.stalled_fb : (s.stalled).fb = s.fb := rfl
@[simp] theorem State.stalled_inputs : (s.stalled).inputs = s.inputs := rfl
@[simp] theorem State.stalled_draws : (s.stalled).draws = s.draws := rfl
@[simp] theorem State.stalled_sizes : (s.stalled).sizes = s.sizes := rfl
@[simp] theorem State.stalled_policy : (s.stalled).policy = s.policy := rfl

/-! ### applyTicks -/

@[simp] theorem State.applyTicks_v : (s.applyTicks).v = s.v := rfl
@[simp] theorem State.applyTicks_index : (s.applyTicks).index = s.index := rfl
@[simp] theorem State.applyTicks_pc : (s.applyTicks).pc = s.pc := rfl
@[simp] theorem State.applyTicks_stack : (s.applyTicks).stack = s.stack := rfl
@[simp] theorem State.applyTicks_sp : (s.applyTicks).sp = s.sp := rfl
@[simp] theorem State.applyTicks_mem : (s.applyTicks).mem = s.mem := rfl
@[simp] theorem State.applyTicks_fault : (s.applyTicks).fault = s.fault := rfl
@[simp] theorem State.applyTicks_fb : (s.applyTicks).fb = s.fb := rfl
@[simp] theorem State.applyTicks_result : (s.applyTicks).result = s.result := rfl
@[simp] theorem State.applyTicks_inputs : (s.applyTicks).inputs = s.inputs := rfl
@[simp] theorem State.applyTicks_draws : (s.applyTicks).draws = s.draws := rfl
@[simp] theorem State.applyTicks_sizes : (s.applyTicks).sizes = s.sizes := rfl
@[simp] theorem State.applyTicks_policy : (s.applyTicks).policy = s.policy := rfl

/-! ### drawInputs -/

@[simp] theorem State.drawInputs_v : (s.drawInputs).v = s.v := rfl
@[simp] theorem State.drawInputs_index : (s.drawInputs).index = s.index := rfl
@[simp] theorem State.drawInputs_pc : (s.drawInputs).pc = s.pc := rfl
@[simp] theorem State.drawInputs_stack : (s.drawInputs).stack = s.stack := rfl
@[simp] theorem State.drawInputs_sp : (s.drawInputs).sp = s.sp := rfl
@[simp] theorem State.drawInputs_dt : (s.drawInputs).dt = s.dt := rfl
@[simp] theorem State.drawInputs_st : (s.drawInputs).st = s.st := rfl
@[simp] theorem State.drawInputs_mem : (s.drawInputs).mem = s.mem := rfl
@[simp] theorem State.drawInputs_fault : (s.drawInputs).fault = s.fault := rfl
@[simp] theorem State.drawInputs_fb : (s.drawInputs).fb = s.fb := rfl
@[simp] theorem State.drawInputs_result : (s.drawInputs).result = s.result := rfl
@[simp] theorem State.drawInputs_sizes : (s.drawInputs).sizes = s.sizes := rfl
@[simp] theorem State.drawInputs_policy : (s.drawInputs).policy = s.policy := rfl

/-! ### tickTimers -/

@[simp] theorem State.tickTimers_v : (s.tickTimers).v = s.v := rfl
@[simp] theorem State.tickTimers_index : (s.tickTimers).index = s.index := rfl
@[simp] theorem State.tickTimers_pc : (s.tickTimers).pc = s.pc := rfl
@[simp] theorem State.tickTimers_stack : (s.tickTimers).stack = s.stack := rfl
@[simp] theorem State.tickTimers_sp : (s.tickTimers).sp = s.sp := rfl
@[simp] theorem State.tickTimers_mem : (s.tickTimers).mem = s.mem := rfl
@[simp] theorem State.tickTimers_fault : (s.tickTimers).fault = s.fault := rfl
@[simp] theorem State.tickTimers_fb : (s.tickTimers).fb = s.fb := rfl
@[simp] theorem State.tickTimers_result : (s.tickTimers).result = s.result := rfl
@[simp] theorem State.tickTimers_inputs : (s.tickTimers).inputs = s.inputs := rfl
@[simp] theorem State.tickTimers_draws : (s.tickTimers).draws = s.draws := rfl
@[simp] theorem State.tickTimers_sizes : (s.tickTimers).sizes = s.sizes := rfl
@[simp] theorem State.tickTimers_policy : (s.tickTimers).policy = s.policy := rfl

/-! ### bumpIndex -/

@[simp] theorem State.bumpIndex_v (x : Reg) : (s.bumpIndex x).v = s.v := by unfold State.bumpIndex; split <;> rfl
@[simp] theorem State.bumpIndex_pc (x : Reg) : (s.bumpIndex x).pc = s.pc := by unfold State.bumpIndex; split <;> rfl
@[simp] theorem State.bumpIndex_stack (x : Reg) : (s.bumpIndex x).stack = s.stack := by unfold State.bumpIndex; split <;> rfl
@[simp] theorem State.bumpIndex_sp (x : Reg) : (s.bumpIndex x).sp = s.sp := by unfold State.bumpIndex; split <;> rfl
@[simp] theorem State.bumpIndex_dt (x : Reg) : (s.bumpIndex x).dt = s.dt := by unfold State.bumpIndex; split <;> rfl
@[simp] theorem State.bumpIndex_st (x : Reg) : (s.bumpIndex x).st = s.st := by unfold State.bumpIndex; split <;> rfl
@[simp] theorem State.bumpIndex_mem (x : Reg) : (s.bumpIndex x).mem = s.mem := by unfold State.bumpIndex; split <;> rfl
@[simp] theorem State.bumpIndex_fault (x : Reg) : (s.bumpIndex x).fault = s.fault := by unfold State.bumpIndex; split <;> rfl
@[simp] theorem State.bumpIndex_fb (x : Reg) : (s.bumpIndex x).fb = s.fb := by unfold State.bumpIndex; split <;> rfl
@[simp] theorem State.bumpIndex_result (x : Reg) : (s.bumpIndex x).result = s.result := by unfold State.bumpIndex; split <;> rfl
@[simp] theorem State.bumpIndex_inputs (x : Reg) : (s.bumpIndex x).inputs = s.inputs := by unfold State.bumpIndex; split <;> rfl
@[simp] theorem State.bumpIndex_draws (x : Reg) : (s.bumpIndex x).draws = s.draws := by unfold State.bumpIndex; split <;> rfl
@[simp] theorem State.bumpIndex_sizes (x : Reg) : (s.bumpIndex x).sizes = s.sizes := by unfold State.bumpIndex; split <;> rfl
@[simp] theorem State.bumpIndex_policy (x : Reg) : (s.bumpIndex x).policy = s.policy := by unfold State.bumpIndex; split <;> rfl

/-! ### loadLowRegs -/

@[simp] theorem State.loadLowRegs_index (x : Reg) (a : Nat) : (s.loadLowRegs x a).index = s.index := rfl
@[simp] theorem State.loadLowRegs_pc (x : Reg) (a : Nat) : (s.loadLowRegs x a).pc = s.pc := rfl
@[simp] theorem State.loadLowRegs_stack (x : Reg) (a : Nat) : (s.loadLowRegs x a).stack = s.stack := rfl
@[simp] theorem State.loadLowRegs_sp (x : Reg) (a : Nat) : (s.loadLowRegs x a).sp = s.sp := rfl
@[simp] theorem State.loadLowRegs_dt (x : Reg) (a : Nat) : (s.loadLowRegs x a).dt = s.dt := rfl
@[simp] theorem State.loadLowRegs_st (x : Reg) (a : Nat) : (s.loadLowRegs x a).st = s.st := rfl
@[simp] theorem State.loadLowRegs_mem (x : Reg) (a : Nat) : (s.loadLowRegs x a).mem = s.mem := rfl
@[simp] theorem State.loadLowRegs_fault (x : Reg) (a : Nat) : (s.loadLowRegs x a).fault = s.fault := rfl
@[simp] theorem State.loadLowRegs_fb (x : Reg) (a : Nat) : (s.loadLowRegs x a).fb = s.fb := rfl
@[simp] theorem State.loadLowRegs_result (x : Reg) (a : Nat) : (s.loadLowRegs x a).result = s.result := rfl
@[simp] theorem State.loadLowRegs_inputs (x : Reg) (a : Nat) : (s.loadLowRegs x a).inputs = s.inputs := rfl
@[simp] theorem State.loadLowRegs_draws (x : Reg) (a : Nat) : (s.loadLowRegs x a).draws = s.draws := rfl
@[simp] theorem State.loadLowRegs_sizes (x : Reg) (a : Nat) : (s.loadLowRegs x a).sizes = s.sizes := rfl
@[simp] theorem State.loadLowRegs_policy (x : Reg) (a : Nat) : (s.loadLowRegs x a).policy = s.policy := rfl

/-! ### The fields an update writes -/

@[simp] theorem State.advance_pc : s.advance.pc = s.pc + 2 := rfl
@[simp] theorem State.takeFault_pc (r : FaultRecord) : (s.takeFault r).pc = r.pc := rfl
@[simp] theorem State.takeFault_fault (r : FaultRecord) : (s.takeFault r).fault = some r := rfl
@[simp] theorem State.takeFault_result (r : FaultRecord) : (s.takeFault r).result = some (.fault r) := rfl
@[simp] theorem State.completed_result (b : Bool) : (s.completed b).result = some (.done b) := rfl
@[simp] theorem State.stalled_pc : s.stalled.pc = s.pc - 2 := rfl
@[simp] theorem State.stalled_result : s.stalled.result = some .stall := rfl
@[simp] theorem State.applyTicks_dt : s.applyTicks.dt = tickBy s.inputs.ticks s.dt := rfl
@[simp] theorem State.applyTicks_st : s.applyTicks.st = tickBy s.inputs.ticks s.st := rfl
@[simp] theorem State.drawInputs_inputs : s.drawInputs.inputs = Inputs.drawn s.draws := rfl
@[simp] theorem State.drawInputs_draws : s.drawInputs.draws = s.draws + 1 := rfl
@[simp] theorem State.tickTimers_dt : s.tickTimers.dt = tickOnce s.dt := rfl
@[simp] theorem State.tickTimers_st : s.tickTimers.st = tickOnce s.st := rfl
@[simp] theorem State.skipIf_true_pc : (s.skipIf true).pc = s.pc + 2 := rfl
@[simp] theorem State.skipIf_false : s.skipIf false = s := rfl

/-! ### Registers -/

@[simp] theorem State.getV_setV_same (x : Reg) (b : Byte) : (s.setV x b).getV x = b := by
  simp [State.getV, State.setV]

theorem State.getV_setV_ne {x r : Reg} (b : Byte) (h : r ≠ x) : (s.setV x b).getV r = s.getV r := by
  have : x.val ≠ r.val := fun e => h (Fin.ext e.symm)
  simp [State.getV, State.setV, this]

theorem State.getV_setV (x r : Reg) (b : Byte) :
    (s.setV x b).getV r = if r = x then b else s.getV r := by
  split
  · subst_vars; simp
  · exact s.getV_setV_ne b ‹_›

/-- Where a family-8 result and its flag end (R84): the flag register holds the flag, even as X. -/
theorem State.getV_setResultFlag (x r : Reg) (b f : Byte) :
    (s.setResultFlag x b f).getV r = if r = VF then f else if r = x then b else s.getV r := by
  simp only [State.setResultFlag, State.getV_setV]

theorem State.getV_loadLowRegs (x r : Reg) (a : Nat) :
    (s.loadLowRegs x a).getV r = if r ≤ x then s.byteAt (a + r.val) else s.getV r := by
  simp [State.getV, State.loadLowRegs]

/-- Two register files that read alike are equal. -/
theorem State.v_ext {s t : State} (h : ∀ r, t.getV r = s.getV r) : t.v = s.v :=
  Vector.ext fun i hi => h ⟨i, hi⟩

/-- A register is read from the register file alone. -/
theorem State.getV_congr {s t : State} (h : t.v = s.v) (r : Reg) : t.getV r = s.getV r := by
  simp [State.getV, h]

/-- A byte is read from the memory and the parameters alone. -/
theorem State.byteAt_congr {s t : State} (hm : t.mem = s.mem) (hz : t.sizes = s.sizes)
    (hp : t.policy = s.policy) (a : Nat) : t.byteAt a = s.byteAt a := by
  simp [State.byteAt, hm, hz, hp]

end Sys2Proof.Machine
end

