-- ==== Sys2Proof/Laws/Memory.lean ====
section
/-! SUPPORT. The laws of memory: a read after a write, the canonical form kept by every write, and what a
run of byte writes leaves. -/

namespace Sys2Proof.Machine

variable (init : Nat → Byte)

/-! ### One byte -/

theorem Memory.read_insertCell (c : Host.Cell) (m : Memory) (a : Nat) (h : ∀ d ∈ m, d.1 ≠ c.1) :
    Memory.read init (insertCell c m) a = if a = c.1 then c.2 else Memory.read init m a := by
  induction m with
  | nil => simp [insertCell, Memory.read, eq_comm]
  | cons d m ih =>
    have hd : d.1 ≠ c.1 := h d (by simp)
    have ih := ih fun e he => h e (by simp [he])
    by_cases hlt : c.1 < d.1
    · simp [insertCell, hlt, Memory.read, eq_comm]
    · by_cases had : d.1 = a
      · have : a ≠ c.1 := had ▸ hd
        simp only [insertCell, if_neg hlt, Memory.read, if_pos had, if_neg this]
      · simp [insertCell, hlt, Memory.read, had, ih]

theorem Memory.read_filter (m : Memory) (a k : Nat) :
    Memory.read init (m.filter fun c => decide (c.1 ≠ a)) k =
      if k = a then init a else Memory.read init m k := by
  induction m with
  | nil => by_cases h : k = a <;> simp [Memory.read, h]
  | cons d m ih =>
    by_cases hd : d.1 = a
    · rw [List.filter_cons_of_neg (by simp [hd]), ih]
      by_cases hk : k = a
      · simp [hk]
      · have : ¬ a = k := fun e => hk e.symm
        simp [hk, Memory.read, hd, this]
    · rw [List.filter_cons_of_pos (by simp [hd])]
      by_cases hdk : d.1 = k
      · have : ¬ k = a := hdk ▸ hd
        simp [Memory.read, hdk, this]
      · simp only [Memory.read, hdk, if_false, ih]

/-- A read after a write (R40, R41): the written byte at the address, and every other byte as before. -/
theorem Memory.read_write (m : Memory) (a k : Nat) (b : Byte) :
    Memory.read init (Memory.write init m a b) k = if k = a then b else Memory.read init m k := by
  have hne : ∀ d ∈ m.filter (fun c => decide (c.1 ≠ a)), d.1 ≠ a := fun d hd => by
    simpa using (List.mem_filter.1 hd).2
  by_cases hb : b = init a
  · simp only [Memory.write, if_pos hb, Memory.read_filter]
    rw [← hb]
  · simp only [Memory.write, if_neg hb]
    rw [Memory.read_insertCell init (a, b) _ k hne, Memory.read_filter]
    by_cases hk : k = a <;> simp [hk]

theorem mem_insertCell (c d : Host.Cell) (m : Memory) : d ∈ insertCell c m ↔ d = c ∨ d ∈ m := by
  induction m with
  | nil => simp [insertCell]
  | cons e m ih =>
    by_cases h : c.1 < e.1
    · simp [insertCell, h]
    · simp [insertCell, h, ih, or_left_comm]

theorem insertCell_rising (c : Host.Cell) (m : Memory) (hm : m.Pairwise fun c d => c.1 < d.1)
    (h : ∀ d ∈ m, d.1 ≠ c.1) : (insertCell c m).Pairwise fun c d => c.1 < d.1 := by
  induction m with
  | nil => simp [insertCell]
  | cons e m ih =>
    obtain ⟨he, hm⟩ := List.pairwise_cons.1 hm
    by_cases hlt : c.1 < e.1
    · simp only [insertCell, hlt, if_true, List.pairwise_cons]
      refine ⟨fun d hd => ?_, he, hm⟩
      rcases List.mem_cons.1 hd with rfl | hd
      · exact hlt
      · exact hlt.trans (he d hd)
    · simp only [insertCell, hlt, if_false, List.pairwise_cons]
      refine ⟨fun d hd => ?_, ih hm fun d hd => h d (by simp [hd])⟩
      rcases (mem_insertCell c d m).1 hd with rfl | hd
      · exact lt_of_le_of_ne (not_lt.1 hlt) (h e (by simp))
      · exact he d hd

/-- A write below MEM_SIZE keeps the canonical form. -/
theorem Memory.wf_write {size : Nat} {m : Memory} {a : Nat} (b : Byte) (hm : Memory.wf size init m)
    (ha : a < size) :
    Memory.wf size init (Memory.write init m a b) := by
  have hrest : Memory.wf size init (m.filter fun c => decide (c.1 ≠ a)) :=
    ⟨hm.1.filter _, fun c hc => hm.2 c (List.mem_filter.1 hc).1⟩
  have hne : ∀ d ∈ m.filter (fun c => decide (c.1 ≠ a)), d.1 ≠ a := fun d hd => by
    simpa using (List.mem_filter.1 hd).2
  by_cases hb : b = init a
  · simpa only [Memory.write, if_pos hb] using hrest
  · simp only [Memory.write, if_neg hb]
    refine ⟨insertCell_rising _ _ hrest.1 hne, fun c hc => ?_⟩
    rcases (mem_insertCell _ _ _).1 hc with rfl | hc
    · exact ⟨ha, hb⟩
    · exact hrest.2 c hc

/-- The empty list, reset memory, is canonical. -/
theorem Memory.wf_nil (size : Nat) : Memory.wf size init [] := ⟨List.Pairwise.nil, by simp⟩

/-- Writing back the byte an address reads as changes no read. -/
theorem Memory.write_same {m : Memory} (a : Nat) (k : Nat) :
    Memory.read init (Memory.write init m a (Memory.read init m a)) k = Memory.read init m k := by
  rw [Memory.read_write]; split
  · subst_vars; rfl
  · rfl

/-! ### The state's bytes -/

variable (s : State)

/-- The one byte a store writes, and every other byte as before. -/
theorem State.byteAt_storeByte (a k : Nat) (b : Byte) :
    (s.storeByte a b).byteAt k = if k = a then b else s.byteAt k := by
  simp only [State.byteAt, State.storeByte, Memory.read_write]

theorem State.memWf_storeByte {s : State} {a : Nat} (b : Byte) (h : s.memWf)
    (ha : a < s.sizes.memSize) :
    (s.storeByte a b).memWf := Memory.wf_write _ b h ha

/-- A run of stores changes the memory and nothing else. -/
theorem State.storeBytes_eq (a : Nat) (bs : List Byte) :
    s.storeBytes a bs = { s with mem := (s.storeBytes a bs).mem } := by
  induction bs generalizing s a with
  | nil => rfl
  | cons b bs ih => rw [State.storeBytes, ih]; rfl

@[simp] theorem State.storeBytes_v (a : Nat) (bs : List Byte) : (s.storeBytes a bs).v = s.v := by
  rw [State.storeBytes_eq]
@[simp] theorem State.storeBytes_index (a : Nat) (bs : List Byte) :
    (s.storeBytes a bs).index = s.index := by rw [State.storeBytes_eq]
@[simp] theorem State.storeBytes_pc (a : Nat) (bs : List Byte) : (s.storeBytes a bs).pc = s.pc := by
  rw [State.storeBytes_eq]
@[simp] theorem State.storeBytes_stack (a : Nat) (bs : List Byte) :
    (s.storeBytes a bs).stack = s.stack := by rw [State.storeBytes_eq]
@[simp] theorem State.storeBytes_sp (a : Nat) (bs : List Byte) : (s.storeBytes a bs).sp = s.sp := by
  rw [State.storeBytes_eq]
@[simp] theorem State.storeBytes_dt (a : Nat) (bs : List Byte) : (s.storeBytes a bs).dt = s.dt := by
  rw [State.storeBytes_eq]
@[simp] theorem State.storeBytes_st (a : Nat) (bs : List Byte) : (s.storeBytes a bs).st = s.st := by
  rw [State.storeBytes_eq]
@[simp] theorem State.storeBytes_fault (a : Nat) (bs : List Byte) :
    (s.storeBytes a bs).fault = s.fault := by rw [State.storeBytes_eq]
@[simp] theorem State.storeBytes_fb (a : Nat) (bs : List Byte) : (s.storeBytes a bs).fb = s.fb := by
  rw [State.storeBytes_eq]
@[simp] theorem State.storeBytes_result (a : Nat) (bs : List Byte) :
    (s.storeBytes a bs).result = s.result := by rw [State.storeBytes_eq]
@[simp] theorem State.storeBytes_inputs (a : Nat) (bs : List Byte) :
    (s.storeBytes a bs).inputs = s.inputs := by rw [State.storeBytes_eq]
@[simp] theorem State.storeBytes_draws (a : Nat) (bs : List Byte) :
    (s.storeBytes a bs).draws = s.draws := by rw [State.storeBytes_eq]
@[simp] theorem State.storeBytes_sizes (a : Nat) (bs : List Byte) :
    (s.storeBytes a bs).sizes = s.sizes := by rw [State.storeBytes_eq]
@[simp] theorem State.storeBytes_policy (a : Nat) (bs : List Byte) :
    (s.storeBytes a bs).policy = s.policy := by rw [State.storeBytes_eq]

/-- What a run of stores leaves: the bytes at their addresses, and every other byte as before. -/
theorem State.byteAt_storeBytes (a k : Nat) (bs : List Byte) :
    (s.storeBytes a bs).byteAt k =
      if h : a ≤ k ∧ k < a + bs.length then bs[k - a]'(by omega) else s.byteAt k := by
  induction bs generalizing s a with
  | nil => simp [State.storeBytes]
  | cons b bs ih =>
    rw [State.storeBytes, ih, State.byteAt_storeByte]
    by_cases hk : k = a
    · subst hk
      simp
    · by_cases h1 : a + 1 ≤ k ∧ k < a + 1 + bs.length
      · have h2 : a ≤ k ∧ k < a + (b :: bs).length := by simp; omega
        rw [dif_pos h1, dif_pos h2]
        obtain ⟨j, hj⟩ : ∃ j, k - a = j + 1 := ⟨k - a - 1, by omega⟩
        have : k - (a + 1) = j := by omega
        simp only [this, hj, List.getElem_cons_succ]
      · have h2 : ¬ (a ≤ k ∧ k < a + (b :: bs).length) := by simp; omega
        rw [dif_neg h1, dif_neg h2, if_neg hk]

theorem State.memWf_storeBytes {s : State} {a : Nat} {bs : List Byte} (h : s.memWf)
    (ha : a + bs.length ≤ s.sizes.memSize) : (s.storeBytes a bs).memWf := by
  induction bs generalizing s a with
  | nil => exact h
  | cons b bs ih =>
    simp only [List.length_cons] at ha
    exact ih (s.memWf_storeByte b h (by omega)) (by rw [State.storeByte_sizes]; omega)

/-- What a Load that succeeds leaves (R57): the program's bytes from PROG_BASE on, and all else. -/
theorem State.load_ok {s t : State} {source : Option (List Byte)} (h : s.load source = .ok t) :
    ∃ bytes, source = some bytes ∧ s.sizes.progBase + bytes.length ≤ s.sizes.memSize ∧
      t = s.storeBytes s.sizes.progBase bytes := by
  unfold State.load at h
  split at h
  · cases h
  · rename_i bytes
    split at h
    · cases h
    · exact ⟨bytes, rfl, by omega, (Except.ok.inj h).symm⟩

/-- Load keeps the canonical form. -/
theorem State.memWf_load {s t : State} {source : Option (List Byte)} (h : s.memWf)
    (ht : s.load source = .ok t) : t.memWf := by
  obtain ⟨bytes, -, hlen, rfl⟩ := State.load_ok ht
  exact State.memWf_storeBytes h hlen

/-- Reset gives the canonical form. -/
theorem State.memWf_hostReset (s : State) : s.hostReset.memWf := Memory.wf_nil _ _

@[simp] theorem State.loadBytes_length (a n : Nat) : (s.loadBytes a n).length = n := by
  simp [State.loadBytes]

@[simp] theorem State.loadBytes_getElem (a n k : Nat) (h : k < (s.loadBytes a n).length) :
    (s.loadBytes a n)[k] = s.byteAt (a + k) := by
  simp [State.loadBytes]

end Sys2Proof.Machine
end

