-- ==== Sys2Proof/Laws/Ops.lean ====
section
/-! SUPPORT. One lemma for each shared operation, saying once everything it can do. -/

namespace Sys2Proof.Machine

/-! ### Address checks -/

/-- No address is refused exactly where every check passes. -/
theorem firstFailing_none {check : Nat → Option OobSubkind} {base n : Nat} :
    firstFailing check base n = none ↔ ∀ k < n, check (base + k) = none := by
  simp [firstFailing]

/-- The first address that a check refuses is reported (R102). -/
theorem firstFailing_at {check : Nat → Option OobSubkind} {base n k : Nat} {sub : OobSubkind}
    (hk : k < n) (before : ∀ j < k, check (base + j) = none) (h : check (base + k) = some sub) :
    firstFailing check base n = some (sub, base + k) := by
  obtain ⟨m, rfl⟩ := Nat.exists_eq_add_of_lt hk
  have hb : firstFailing check base k = none := firstFailing_none.2 before
  unfold firstFailing at hb ⊢
  rw [Nat.add_assoc, List.range_add, List.findSome?_append, hb, Nat.add_comm m 1, List.range_add]
  simp [h]

/-- What a refused address was refused with. -/
theorem firstFailing_some {check : Nat → Option OobSubkind} {base n : Nat} {e : OobSubkind × Nat}
    (h : firstFailing check base n = some e) : check e.2 = some e.1 := by
  obtain ⟨k, -, hk⟩ := List.exists_of_findSome?_eq_some h
  obtain ⟨sub, hs, rfl⟩ := Option.map_eq_some_iff.1 hk
  exact hs

@[simp] theorem readCheck_none {z : Sizes} {a : Nat} : readCheck z a = none ↔ a < z.memSize := by
  unfold readCheck; split <;> simp_all

theorem readCheck_some {z : Sizes} {a : Nat} (h : z.memSize ≤ a) : readCheck z a = some .read := if_pos h

/-- Reads fail at the first address at or above MEM_SIZE (R40, R102). -/
theorem firstFailing_read (z : Sizes) (base n : Nat) :
    firstFailing (readCheck z) base n =
      if 0 < n ∧ z.memSize < base + n then some (.read, max base z.memSize) else none := by
  split
  · rename_i h
    have e : base + (max base z.memSize - base) = max base z.memSize := by omega
    have := firstFailing_at (check := readCheck z) (base := base) (n := n)
      (k := max base z.memSize - base) (sub := .read) (by omega)
      (fun j hj => by rw [readCheck_none]; omega) (readCheck_some (by omega))
    rwa [e] at this
  · exact firstFailing_none.2 fun k hk => by rw [readCheck_none]; omega

/-- A check of a write passes exactly where a program may write (R41, R102). -/
theorem writeCheck_none {s : State} {a : Nat} :
    writeCheck s.sizes s.policy a = none ↔ s.writable a := by
  unfold writeCheck State.writable
  split
  · simp; omega
  · split <;> simp <;> grind

/-- A check of a write that fails raises the fault of that address (R41, R117). -/
theorem writeCheck_some {s : State} {a : Nat} (h : ¬ s.writable a) :
    ∃ sub, writeCheck s.sizes s.policy a = some sub ∧ s.writeFault a = .outOfBoundsAccess sub := by
  rw [← writeCheck_none] at h
  unfold State.writeFault
  unfold writeCheck at h ⊢
  by_cases hm : s.sizes.memSize ≤ a
  · exact ⟨.write, by rw [if_pos hm], by rw [if_pos hm]⟩
  · rw [if_neg hm] at h
    rw [if_neg hm, if_neg hm]
    split at h
    · exact ⟨.fontWrite, by rw [if_pos ‹_›], rfl⟩
    · exact absurd rfl h

/-- A FONT_WRITE or WRITE check fails with no other subkind, and FONT_WRITE only where the table is
protected. -/
theorem writeCheck_sub {z : Sizes} {p : Policy} {a : Nat} {sub : OobSubkind}
    (h : writeCheck z p a = some sub) : sub = .write ∨ (sub = .fontWrite ∧ p.fontWrite = .fault) := by
  unfold writeCheck at h
  split at h
  · cases h; exact .inl rfl
  · split at h <;> cases h
    rename_i hc; exact .inr ⟨rfl, hc.1⟩

theorem readCheck_sub {z : Sizes} {a : Nat} {sub : OobSubkind} (h : readCheck z a = some sub) :
    sub = .read := by
  unfold readCheck at h; split at h <;> cases h; rfl

/-! ### The ends of a step -/

@[simp] theorem finish_eq (b : Bool) (s : State) : finish b s = .next (s.completed b) := rfl

@[simp] theorem raise_eq (op : Word) (kind : FaultKind) (info : Option Nat) (s : State) :
    raise op kind info s = .next (s.takeFault ⟨kind, s.pc - 2, some op, info⟩) := rfl

@[simp] theorem raiseAt_eq (op : Word) (e : OobSubkind × Nat) (s : State) :
    raiseAt op e s =
      .next (s.takeFault ⟨.outOfBoundsAccess e.1, s.pc - 2, some op, some e.2⟩) := rfl

/-- A family-8 instruction either raises OutOfBoundsAccess(REGISTER, 15) or completes (R24, R84). -/
theorem aluGuard_eq (op : Word) (readsY : Bool) (x y : Reg) (t s : State) :
    aluGuard op readsY x y t s =
      if vfOperandRefused s.policy readsY x y then
        .next (s.takeFault ⟨.outOfBoundsAccess .register, s.pc - 2, some op, some 15⟩)
      else .next (t.completed false) := rfl

/-! ### The call stack -/

/-- Push (R29): with a free slot, S[SP] <- a and SP <- SP + 1. -/
theorem State.push_of_lt (s : State) (a : Word) (h : s.sp < s.sizes.stackDepth) :
    s.push a = some { s with stack := s.stack.set s.sp a, sp := s.sp + 1 } := if_pos h

/-- Push (R29): with no free slot, StackOverflow. -/
theorem State.push_of_full (s : State) (a : Word) (h : ¬ s.sp < s.sizes.stackDepth) :
    s.push a = none := if_neg h

/-- What a push that succeeds leaves. -/
theorem State.push_some {s t : State} {a : Word} (h : s.push a = some t) :
    s.sp < s.sizes.stackDepth ∧ t = { s with stack := s.stack.set s.sp a, sp := s.sp + 1 } := by
  unfold State.push at h
  split at h
  · exact ⟨‹_›, (Option.some.inj h).symm⟩
  · cases h

/-- Pop (R30): with a slot in use, its value, and SP <- SP - 1. -/
theorem State.pop_of_ne (s : State) (h : s.sp ≠ 0) :
    s.pop = some (s.stack.getD (s.sp - 1) 0, { s with sp := s.sp - 1 }) := if_neg h

/-- Pop (R30): with no slot in use, StackUnderflow. -/
theorem State.pop_of_empty (s : State) (h : s.sp = 0) : s.pop = none := if_pos h

/-- What a pop that succeeds leaves (R30): the slot keeps its value. -/
theorem State.pop_some {s t : State} {a : Word} (h : s.pop = some (a, t)) :
    s.sp ≠ 0 ∧ a = s.stack.getD (s.sp - 1) 0 ∧ t = { s with sp := s.sp - 1 } := by
  by_cases h0 : s.sp = 0
  · rw [s.pop_of_empty h0] at h; cases h
  · rw [s.pop_of_ne h0] at h; cases h; exact ⟨h0, rfl, rfl⟩

/-! ### Fetching -/

/-- A fetch that succeeds is not refused, and reads two bytes big-endian (R58). -/
theorem State.fetch_some {s : State} {op : Word} (h : s.fetch = some op) :
    fetchRefused s.sizes s.policy s.pc.toNat = false ∧
      op = wordOfBytes (s.byteAt s.pc.toNat) (s.byteAt (s.pc.toNat + 1)) := by
  unfold State.fetch at h
  split at h
  · cases h
  · rename_i hr
    exact ⟨Bool.not_eq_true _ ▸ hr, (Option.some.inj h).symm⟩

/-- Ticks change no byte, no pc and no policy, so they change no fetch. -/
@[simp] theorem State.applyTicks_fetch (s : State) : s.applyTicks.fetch = s.fetch := rfl

@[simp] theorem State.applyTicks_byteAt (s : State) (a : Nat) : s.applyTicks.byteAt a = s.byteAt a := rfl
@[simp] theorem State.drawInputs_byteAt (s : State) (a : Nat) : s.drawInputs.byteAt a = s.byteAt a := rfl
@[simp] theorem State.advance_byteAt (s : State) (a : Nat) : s.advance.byteAt a = s.byteAt a := rfl
@[simp] theorem State.takeFault_byteAt (s : State) (r : FaultRecord) (a : Nat) :
    (s.takeFault r).byteAt a = s.byteAt a := rfl

@[simp] theorem State.skipIf_byteAt (s : State) (c : Bool) (a : Nat) :
    (s.skipIf c).byteAt a = s.byteAt a := by cases c <;> rfl
@[simp] theorem State.bumpIndex_byteAt (s : State) (x : Reg) (a : Nat) :
    (s.bumpIndex x).byteAt a = s.byteAt a := by unfold State.bumpIndex; split <;> rfl
@[simp] theorem State.completed_byteAt (s : State) (b : Bool) (a : Nat) :
    (s.completed b).byteAt a = s.byteAt a := rfl
@[simp] theorem State.setV_byteAt (s : State) (x : Reg) (b : Byte) (a : Nat) :
    (s.setV x b).byteAt a = s.byteAt a := rfl

/-! ### Timers -/

/-- A tick of n is n ticks (R123). -/
theorem tickBy_succ (n : Nat) (t : Byte) : tickBy (n + 1) t = tickBy n (tickOnce t) := by
  unfold tickBy tickOnce
  split
  · subst_vars; simp
  · rename_i h
    have hpos : 0 < t.toNat := by
      rcases Nat.eq_zero_or_pos t.toNat with h0 | h0
      · exact absurd (BitVec.eq_of_toNat_eq h0) h
      · exact h0
    have h1 : (1 : Byte).toNat = 1 := rfl
    have : (t - 1).toNat = t.toNat - 1 := BitVec.toNat_sub_of_le (by rw [BitVec.le_def, h1]; omega)
    rw [this]; congr 1; omega

theorem tickBy_zero (t : Byte) : tickBy 0 t = t := by simp [tickBy]

/-! ### The key wait -/

/-- The key FX0A takes is down (R108). -/
theorem State.waitedKey_down {s : State} {k : Nat} (h : s.waitedKey = some k) :
    k < numKeys ∧ s.isKeyDown k = true := by
  have low : ∀ {k}, s.lowestKey = some k → k < numKeys ∧ s.isKeyDown k = true := fun {k} h =>
    ⟨List.mem_range.1 (List.mem_of_find?_eq_some h), List.find?_some h⟩
  unfold State.waitedKey at h
  split at h
  · exact low h
  · split at h
    · cases h; exact ⟨s.inputs.keyPick.isLt, ‹_›⟩
    · exact low h

/-- FX0A waits exactly while no key is down (R108). -/
theorem State.waitedKey_none {s : State} :
    s.waitedKey = none ↔ ∀ k, k < numKeys → s.isKeyDown k = false := by
  have low : s.lowestKey = none ↔ ∀ k, k < numKeys → s.isKeyDown k = false := by
    simp [State.lowestKey]
  unfold State.waitedKey
  split
  · exact low
  · split
    · rename_i hdown
      refine Iff.intro nofun fun h => ?_
      exact absurd hdown (by simp [h _ s.inputs.keyPick.isLt])
    · exact low

end Sys2Proof.Machine
end

