-- ==== Sys2Proof/Laws/Draw.lean ====
section
/-! SUPPORT. The framebuffer's laws: one toggled pixel, a run of SetPixel calls, a drawn sprite, each said as
which pixels are inverted and when a collision is reported (R100, R124); and the canonical form. -/

namespace Sys2Proof.Machine

/-! ### One pixel -/

theorem mem_insertPixel (p q : Nat × Nat) (fb : Framebuffer) :
    q ∈ insertPixel p fb ↔ q = p ∨ q ∈ fb := by
  induction fb with
  | nil => simp [insertPixel]
  | cons r fb ih =>
    by_cases h : pixelBefore p r
    · simp [insertPixel, h]
    · simp [insertPixel, h, ih, or_left_comm]

theorem mem_togglePixel (fb : Framebuffer) (x y : Nat) (q : Nat × Nat) :
    q ∈ togglePixel fb x y ↔ ¬ (q ∈ fb ↔ q = (x, y)) := by
  unfold togglePixel
  by_cases h : (x, y) ∈ fb
  · rw [if_pos h, List.mem_filter]
    by_cases hq : q = (x, y)
    · subst hq; simp [h]
    · simp [hq]
  · rw [if_neg h, mem_insertPixel]
    by_cases hq : q = (x, y)
    · subst hq; simp [h]
    · simp [hq]

/-- SetPixel inverts its pixel and no other (R124). -/
theorem pixelAt_togglePixel (fb : Framebuffer) (x y px py : Nat) :
    pixelAt (togglePixel fb x y) px py = (pixelAt fb px py ^^ decide ((px, py) = (x, y))) := by
  have := mem_togglePixel fb x y (px, py)
  simp only [pixelAt, this]
  by_cases h : (px, py) ∈ fb <;> by_cases e : (px, py) = (x, y) <;> simp [h, e]

@[simp] theorem pixelAt_clearFB (px py : Nat) : pixelAt clearFB px py = false := rfl

/-! ### The canonical form -/

theorem pixelBefore_irrefl (p : Nat × Nat) : ¬ pixelBefore p p := by unfold pixelBefore; omega

theorem pixelBefore_trans {p q r : Nat × Nat} (h : pixelBefore p q) (h' : pixelBefore q r) :
    pixelBefore p r := by unfold pixelBefore at *; omega

theorem pixelBefore_total {p q : Nat × Nat} (h : ¬ pixelBefore p q) (hne : q ≠ p) : pixelBefore q p := by
  have : q.1 ≠ p.1 ∨ q.2 ≠ p.2 := by
    by_contra hc; push Not at hc; exact hne (Prod.ext hc.1 hc.2)
  unfold pixelBefore at *; omega

theorem insertPixel_rising (p : Nat × Nat) {fb : Framebuffer} (hfb : fb.Pairwise pixelBefore)
    (h : p ∉ fb) : (insertPixel p fb).Pairwise pixelBefore := by
  induction fb with
  | nil => simp [insertPixel]
  | cons q fb ih =>
    obtain ⟨hq, hfb⟩ := List.pairwise_cons.1 hfb
    by_cases hp : pixelBefore p q
    · rw [insertPixel, if_pos hp]
      refine List.pairwise_cons.2 ⟨fun r hr => ?_, List.pairwise_cons.2 ⟨hq, hfb⟩⟩
      rcases List.mem_cons.1 hr with rfl | hr
      · exact hp
      · exact pixelBefore_trans hp (hq r hr)
    · rw [insertPixel, if_neg hp]
      have hne : q ≠ p := fun e => h (by simp [e])
      refine List.pairwise_cons.2 ⟨fun r hr => ?_, ih hfb fun hm => h (by simp [hm])⟩
      rcases (mem_insertPixel p r fb).1 hr with rfl | hr
      · exact pixelBefore_total hp hne
      · exact hq r hr

/-- SetPixel inside the framebuffer keeps the canonical form. -/
theorem Framebuffer.wf_togglePixel {z : Sizes} {fb : Framebuffer} {x y : Nat} (h : Framebuffer.wf z fb)
    (hx : x < z.fbW) (hy : y < z.fbH) : Framebuffer.wf z (togglePixel fb x y) := by
  unfold togglePixel
  split
  · exact ⟨h.1.filter _, fun p hp => h.2 p (List.mem_filter.1 hp).1⟩
  · refine ⟨insertPixel_rising _ h.1 ‹_›, fun p hp => ?_⟩
    rcases (mem_insertPixel _ _ _).1 hp with rfl | hp
    · exact ⟨hx, hy⟩
    · exact h.2 p hp

theorem Framebuffer.wf_clearFB (z : Sizes) : Framebuffer.wf z clearFB := ⟨List.Pairwise.nil, by simp [clearFB]⟩

/-- Two framebuffers in canonical form that show the same pixels are equal. -/
theorem framebuffer_ext {f g : Framebuffer} (hf : f.Pairwise pixelBefore) (hg : g.Pairwise pixelBefore)
    (h : ∀ px py, pixelAt f px py = pixelAt g px py) : f = g := by
  have hm : ∀ q, q ∈ f ↔ q ∈ g := fun q => by
    have := h q.1 q.2
    simpa [pixelAt] using this
  have nodup : ∀ {l : Framebuffer}, l.Pairwise pixelBefore → l.Nodup := fun {l} hl =>
    List.Pairwise.imp (R := pixelBefore) (S := (· ≠ ·)) (fun hb e => pixelBefore_irrefl _ (e ▸ hb)) hl
  exact ((List.perm_ext_iff_of_nodup (nodup hf) (nodup hg)).2 hm).eq_of_pairwise
    (fun _ _ _ _ h1 h2 => absurd (pixelBefore_trans h1 h2) (pixelBefore_irrefl _)) hf hg

/-! ### A run of SetPixel calls -/

/-- A run of SetPixel calls inverts a pixel once for each call. -/
theorem pixelAt_drawPixels (ps : List (Nat × Nat)) (acc : Framebuffer × Bool) (px py : Nat) :
    pixelAt (drawPixels acc ps).1 px py =
      (pixelAt acc.1 px py ^^ decide (ps.count (px, py) % 2 = 1)) := by
  induction ps generalizing acc with
  | nil => simp [drawPixels]
  | cons p ps ih =>
    rw [drawPixels, ih, setPixel, pixelAt_togglePixel, Bool.xor_assoc, List.count_cons]
    congr 1
    by_cases hp : (px, py) = p
    · subst hp
      rcases Nat.mod_two_eq_zero_or_one (ps.count (px, py)) with h | h <;> simp [h, Nat.add_mod]
    · have : ¬ p = (px, py) := fun e => hp e.symm
      simp [hp, this]

/-- A run of SetPixel calls collides where it calls for a pixel that was set, or for one pixel twice. -/
theorem drawPixels_collides (ps : List (Nat × Nat)) (acc : Framebuffer × Bool) :
    (drawPixels acc ps).2 = true ↔ acc.2 = true ∨
      ∃ px py, ((px, py) ∈ ps ∧ pixelAt acc.1 px py = true) ∨ 2 ≤ ps.count (px, py) := by
  induction ps generalizing acc with
  | nil => simp [drawPixels]
  | cons p ps ih =>
    rw [drawPixels, ih]
    simp only [setPixel, Bool.or_eq_true, pixelAt_togglePixel, List.mem_cons, List.count_cons]
    constructor
    · rintro ((h | h) | ⟨px, py, (⟨hm, hp⟩ | hc)⟩)
      · exact .inl h
      · exact .inr ⟨p.1, p.2, .inl ⟨.inl rfl, h⟩⟩
      · by_cases e : (px, py) = p
        · subst e
          exact .inr ⟨px, py, .inr (by have := List.count_pos_iff.2 hm; simp; omega)⟩
        · exact .inr ⟨px, py, .inl ⟨.inr hm, by simpa [e] using hp⟩⟩
      · exact .inr ⟨px, py, .inr (by omega)⟩
    · rintro (h | ⟨px, py, (⟨rfl | hm, hp⟩ | hc)⟩)
      · exact .inl (.inl h)
      · exact .inl (.inr hp)
      · by_cases e : (px, py) = p
        · subst e; exact .inl (.inr hp)
        · exact .inr ⟨px, py, .inl ⟨hm, by simpa [e] using hp⟩⟩
      · by_cases e : p = (px, py)
        · subst e
          simp only [beq_self_eq_true, if_true] at hc
          by_cases hp : pixelAt acc.1 px py = true
          · exact .inl (.inr hp)
          · exact .inr ⟨px, py, .inl ⟨List.count_pos_iff.1 (by omega), by simp [hp]⟩⟩
        · exact .inr ⟨px, py, .inr (by simpa [e] using hc)⟩

/-- A run of SetPixel calls inside the framebuffer keeps the canonical form. -/
theorem Framebuffer.wf_drawPixels {z : Sizes} {acc : Framebuffer × Bool} {ps : List (Nat × Nat)}
    (h : Framebuffer.wf z acc.1) (hp : ∀ p ∈ ps, p.1 < z.fbW ∧ p.2 < z.fbH) :
    Framebuffer.wf z (drawPixels acc ps).1 := by
  induction ps generalizing acc with
  | nil => exact h
  | cons p ps ih =>
    obtain ⟨hx, hy⟩ := hp p (by simp)
    exact ih (wf_togglePixel h hx hy) fun q hq => hp q (by simp [hq])

/-! ### A sprite -/

/-- The pixels of a sprite row lie inside the framebuffer. -/
theorem mem_spritePixels_lt {z : Sizes} (hw : 0 < z.fbW) (hh : 0 < z.fbH) (x0 y0 : Nat)
    (rows : List Byte) : ∀ p ∈ spritePixels z x0 y0 rows, p.1 < z.fbW ∧ p.2 < z.fbH := by
  induction rows generalizing y0 with
  | nil => simp [spritePixels]
  | cons row rows ih =>
    intro p hp
    rcases List.mem_append.1 hp with hp | hp
    · obtain ⟨c, -, rfl⟩ := List.mem_map.1 hp
      exact ⟨Nat.mod_lt _ hw, Nat.mod_lt _ hh⟩
    · exact ih _ p hp

theorem count_rowPixels (z : Sizes) (x0 y : Nat) (row : Byte) (px py : Nat) :
    (rowPixels z x0 y row).count (px, py) = (List.range 8).countP fun c =>
      decide (row.getLsbD (7 - c) = true ∧ (x0 + c) % z.fbW = px ∧ y % z.fbH = py) := by
  rw [rowPixels, List.count, List.countP_map, List.countP_filter]
  congr 1; funext c
  rw [Bool.eq_iff_iff]
  simp [and_comm]

theorem count_spritePixels (z : Sizes) (x0 y0 : Nat) (rows : List Byte) (px py : Nat) :
    (spritePixels z x0 y0 rows).count (px, py) = ((List.range rows.length).map fun r =>
      (rowPixels z x0 (y0 + r) (rows.getD r 0)).count (px, py)).sum := by
  induction rows generalizing y0 with
  | nil => simp [spritePixels]
  | cons row rows ih =>
    rw [spritePixels, List.count_append, ih, List.length_cons, List.range_succ_eq_map]
    simp [Function.comp_def, Nat.add_comm, Nat.add_left_comm]

/-- DXYN calls SetPixel for a pixel once for each of its 1-bits (R100). -/
theorem State.count_spriteAt (s : State) (x y : Reg) (n : Nibble) (px py : Nat) :
    (s.spriteAt x y n).count (px, py) = spriteCount x y n s px py := by
  rw [State.spriteAt, count_spritePixels, State.loadBytes_length, spriteCount]
  congr 1
  refine List.map_congr_left fun r hr => ?_
  have hr : r < n.toNat := List.mem_range.1 hr
  rw [count_rowPixels, List.getD_eq_getElem _ _ (by simpa using hr), State.loadBytes_getElem]

theorem spriteCount_pos (s : State) (x y : Reg) (n : Nibble) (px py : Nat) :
    0 < spriteCount x y n s px py ↔ spriteCovers x y n s px py := by
  unfold spriteCount spriteCovers
  constructor
  · intro h
    by_contra hc
    have : ∀ r ∈ List.range n.toNat, ((List.range 8).countP fun c =>
        decide (spriteBit x y s px py r c)) = 0 := fun r hr => by
      rw [List.countP_eq_zero]
      intro c hcm hb
      exact hc ⟨r, List.mem_range.1 hr, c, List.mem_range.1 hcm, of_decide_eq_true hb⟩
    rw [List.map_congr_left this] at h
    simp at h
  · rintro ⟨r, hr, c, hc, hb⟩
    have h1 : 0 < (List.range 8).countP fun c => decide (spriteBit x y s px py r c) :=
      List.countP_pos_iff.2 ⟨c, List.mem_range.2 hc, decide_eq_true hb⟩
    exact h1.trans_le (List.single_le_sum (fun _ _ => Nat.zero_le _) _
      (List.mem_map.2 ⟨r, List.mem_range.2 hr, rfl⟩))

end Sys2Proof.Machine
end

