-- ==== Sys2Proof/Laws/Exec.lean ====
section
/-! SUPPORT. What an instruction and a step can do, said once: every instruction answers a next state; it
takes a fault, or stalls, or completes; which fields a completed one keeps; where it stores; how it moves
the stack. -/

namespace Sys2Proof.Machine

/-- The three ways an instruction ends (R68): a fault on the state it was given (R115), a stall (R69), or
completion, which leaves the halt record and the model's own fields but result as they were. -/
inductive ExecEnd (i : Instr) (s t : State) : Prop where
  | fault (kind : FaultKind) (info : Option Nat)
      (h : t = s.takeFault ⟨kind, s.pc - 2, some (encode i), info⟩)
  | stall (x : Reg) (hi : i = .ldVxK x) (h : t = s.stalled)
  | done (redraw : Bool) (hr : t.result = some (.done redraw)) (hf : t.fault = s.fault)
      (hi : t.inputs = s.inputs) (hd : t.draws = s.draws) (hz : t.sizes = s.sizes)
      (hp : t.policy = s.policy)

theorem ExecEnd.finish {i : Instr} {s u t : State} (b : Bool)
    (h : Machine.finish b u = .next t) (hf : u.fault = s.fault) (hi : u.inputs = s.inputs)
    (hd : u.draws = s.draws) (hz : u.sizes = s.sizes) (hp : u.policy = s.policy) :
    ExecEnd i s t := by
  cases h; exact .done b rfl hf hi hd hz hp

theorem ExecEnd.raise {i : Instr} {s t : State} (kind : FaultKind) (info : Option Nat)
    (h : Machine.raise (encode i) kind info s = .next t) : ExecEnd i s t := by
  cases h; exact .fault kind info rfl

theorem ExecEnd.guard {i : Instr} {s u t : State} (readsY : Bool) (x y : Reg)
    (h : aluGuard (encode i) readsY x y u s = .next t) (hf : u.fault = s.fault)
    (hi : u.inputs = s.inputs) (hd : u.draws = s.draws) (hz : u.sizes = s.sizes) (hp : u.policy = s.policy) :
    ExecEnd i s t := by
  unfold aluGuard at h
  split at h
  · exact .raise _ _ h
  · exact .finish _ h hf hi hd hz hp

/-- Every instruction ends in one of the three ways. -/
theorem exec_end {i : Instr} {s t : State} (h : exec i s = .next t) : ExecEnd i s t := by
  cases i with
  | cls => exact .finish _ h rfl rfl rfl rfl rfl
  | ret =>
    simp only [exec, execRet] at h
    split at h
    · exact .raise _ _ h
    · rename_i a u hp
      obtain ⟨_, _, rfl⟩ := s.pop_some hp
      exact .finish _ h rfl rfl rfl rfl rfl
  | sys nnn => exact .finish _ h rfl rfl rfl rfl rfl
  | jp nnn => exact .finish _ h rfl rfl rfl rfl rfl
  | call nnn =>
    simp only [exec, execCall] at h
    split at h
    · exact .raise _ _ h
    · rename_i u hp
      obtain ⟨_, rfl⟩ := s.push_some hp
      exact .finish _ h rfl rfl rfl rfl rfl
  | seImm x nn => exact .finish _ h (by simp) (by simp) (by simp) (by simp) (by simp)
  | sneImm x nn => exact .finish _ h (by simp) (by simp) (by simp) (by simp) (by simp)
  | seReg x y => exact .finish _ h (by simp) (by simp) (by simp) (by simp) (by simp)
  | ldImm x nn => exact .finish _ h rfl rfl rfl rfl rfl
  | addImm x nn => exact .finish _ h rfl rfl rfl rfl rfl
  | ldReg x y => exact .guard _ _ _ h rfl rfl rfl rfl rfl
  | orReg x y => exact .guard _ _ _ h rfl rfl rfl rfl rfl
  | andReg x y => exact .guard _ _ _ h rfl rfl rfl rfl rfl
  | xorReg x y => exact .guard _ _ _ h rfl rfl rfl rfl rfl
  | addReg x y => exact .guard _ _ _ h rfl rfl rfl rfl rfl
  | sub x y => exact .guard _ _ _ h rfl rfl rfl rfl rfl
  | shr x y => exact .guard _ _ _ h rfl rfl rfl rfl rfl
  | subn x y => exact .guard _ _ _ h rfl rfl rfl rfl rfl
  | shl x y => exact .guard _ _ _ h rfl rfl rfl rfl rfl
  | sneReg x y => exact .finish _ h (by simp) (by simp) (by simp) (by simp) (by simp)
  | ldI nnn => exact .finish _ h rfl rfl rfl rfl rfl
  | jpV0 nnn => exact .finish _ h rfl rfl rfl rfl rfl
  | rnd x nn => exact .finish _ h rfl rfl rfl rfl rfl
  | drw x y n =>
    simp only [exec, execDrw] at h
    split at h
    · exact .raise _ _ h
    · exact .finish _ h rfl rfl rfl rfl rfl
  | skp x =>
    simp only [exec, execSkp] at h
    split at h
    · exact .raise _ _ h
    · exact .finish _ h (by simp) (by simp) (by simp) (by simp) (by simp)
  | sknp x =>
    simp only [exec, execSknp] at h
    split at h
    · exact .raise _ _ h
    · exact .finish _ h (by simp) (by simp) (by simp) (by simp) (by simp)
  | ldVxDt x => exact .finish _ h rfl rfl rfl rfl rfl
  | ldVxK x =>
    cases h
    unfold State.awaitKey
    split
    · exact .stall x rfl rfl
    · exact .done false rfl rfl rfl rfl rfl rfl
  | ldDtVx x => exact .finish _ h rfl rfl rfl rfl rfl
  | ldStVx x => exact .finish _ h rfl rfl rfl rfl rfl
  | addIVx x => exact .finish _ h rfl rfl rfl rfl rfl
  | ldFVx x =>
    simp only [exec, execLdFVx] at h
    split at h
    · exact .raise _ _ h
    · exact .finish _ h rfl rfl rfl rfl rfl
  | ldBVx x =>
    simp only [exec, execLdBVx] at h
    split at h
    · exact .raise _ _ h
    · exact .finish _ h (by simp) (by simp) (by simp) (by simp) (by simp)
  | ldMemVx x =>
    simp only [exec, execLdMemVx] at h
    split at h
    · exact .raise _ _ h
    · exact .finish _ h (by simp) (by simp) (by simp) (by simp) (by simp)
  | ldVxMem x =>
    simp only [exec, execLdVxMem] at h
    split at h
    · exact .raise _ _ h
    · exact .finish _ h (by simp) (by simp) (by simp) (by simp) (by simp)

/-- Every instruction answers a next state, in every state and for every operand. -/
theorem exec_total (i : Instr) (s : State) : ∃ t, exec i s = .next t := by
  cases i
  case ret => simp only [exec, execRet]; split <;> exact ⟨_, rfl⟩
  case call => simp only [exec, execCall]; split <;> exact ⟨_, rfl⟩
  case ldReg => simp only [exec, execLdReg, aluGuard]; split <;> exact ⟨_, rfl⟩
  case orReg => simp only [exec, execOr, aluGuard]; split <;> exact ⟨_, rfl⟩
  case andReg => simp only [exec, execAnd, aluGuard]; split <;> exact ⟨_, rfl⟩
  case xorReg => simp only [exec, execXor, aluGuard]; split <;> exact ⟨_, rfl⟩
  case addReg => simp only [exec, execAddReg, aluGuard]; split <;> exact ⟨_, rfl⟩
  case sub => simp only [exec, execSub, aluGuard]; split <;> exact ⟨_, rfl⟩
  case shr => simp only [exec, execShr, aluGuard]; split <;> exact ⟨_, rfl⟩
  case subn => simp only [exec, execSubn, aluGuard]; split <;> exact ⟨_, rfl⟩
  case shl => simp only [exec, execShl, aluGuard]; split <;> exact ⟨_, rfl⟩
  case drw => simp only [exec, execDrw]; split <;> exact ⟨_, rfl⟩
  case skp => simp only [exec, execSkp]; split <;> exact ⟨_, rfl⟩
  case sknp => simp only [exec, execSknp]; split <;> exact ⟨_, rfl⟩
  case ldFVx => simp only [exec, execLdFVx]; split <;> exact ⟨_, rfl⟩
  case ldBVx => simp only [exec, execLdBVx]; split <;> exact ⟨_, rfl⟩
  case ldMemVx => simp only [exec, execLdMemVx]; split <;> exact ⟨_, rfl⟩
  case ldVxMem => simp only [exec, execLdVxMem]; split <;> exact ⟨_, rfl⟩
  all_goals exact ⟨_, rfl⟩

/-- No instruction changes a parameter, the inputs or the draw counter. -/
theorem exec_env {i : Instr} {s t : State} (h : exec i s = .next t) :
    t.sizes = s.sizes ∧ t.policy = s.policy ∧ t.inputs = s.inputs ∧ t.draws = s.draws := by
  cases exec_end h with
  | fault _ _ h => subst h; exact ⟨rfl, rfl, rfl, rfl⟩
  | stall _ _ h => subst h; exact ⟨rfl, rfl, rfl, rfl⟩
  | done _ _ _ hi hd hz hp => exact ⟨hz, hp, hi, hd⟩

/-- Where an instruction stores: nowhere, or a run of bytes from I on, at addresses that a program may write
(R41, R102, R111, R112). -/
theorem exec_mem {i : Instr} {s t : State} (h : exec i s = .next t) :
    t.mem = s.mem ∨ ∃ bs : List Byte, t.mem = (s.storeBytes s.base bs).mem ∧
      ∀ k < bs.length, s.writable (s.base + k) := by
  have guard : ∀ {op r x y u}, u.mem = s.mem → aluGuard op r x y u s = .next t → t.mem = s.mem := by
    intro op r x y u hu h
    unfold aluGuard at h
    split at h <;> cases h
    · rfl
    · exact hu
  cases i
  case ret =>
    left; simp only [exec, execRet] at h
    split at h
    · cases h; rfl
    · rename_i hp
      obtain ⟨_, _, rfl⟩ := s.pop_some hp
      cases h; rfl
  case call =>
    left; simp only [exec, execCall] at h
    split at h
    · cases h; rfl
    · rename_i hp
      obtain ⟨_, rfl⟩ := s.push_some hp
      cases h; rfl
  case ldReg => exact .inl (guard (State.setV_mem ..) h)
  case orReg => exact .inl (guard (State.setV_mem ..) h)
  case andReg => exact .inl (guard (State.setV_mem ..) h)
  case xorReg => exact .inl (guard (State.setV_mem ..) h)
  case addReg => exact .inl (guard (State.setResultFlag_mem ..) h)
  case sub => exact .inl (guard (State.setResultFlag_mem ..) h)
  case shr => exact .inl (guard (State.setResultFlag_mem ..) h)
  case subn => exact .inl (guard (State.setResultFlag_mem ..) h)
  case shl => exact .inl (guard (State.setResultFlag_mem ..) h)
  case seImm => cases h; simp
  case sneImm => cases h; simp
  case seReg => cases h; simp
  case sneReg => cases h; simp
  case drw => left; simp only [exec, execDrw] at h; split at h <;> cases h <;> rfl
  case skp => left; simp only [exec, execSkp] at h; split at h <;> cases h <;> simp
  case sknp => left; simp only [exec, execSknp] at h; split at h <;> cases h <;> simp
  case ldFVx => left; simp only [exec, execLdFVx] at h; split at h <;> cases h <;> rfl
  case ldVxK => cases h; left; unfold State.awaitKey; split <;> rfl
  case ldBVx x =>
    simp only [exec, execLdBVx] at h
    split at h
    · cases h; exact .inl rfl
    · rename_i hn
      cases h
      exact .inr ⟨bcdDigits (s.getV x), rfl, fun k hk => writeCheck_none.1 (firstFailing_none.1 hn k hk)⟩
  case ldMemVx x =>
    simp only [exec, execLdMemVx] at h
    split at h
    · cases h; exact .inl rfl
    · rename_i hn
      cases h
      have hlen : (s.lowRegs x).length ≤ x.val + 1 := by simp [State.lowRegs]
      exact .inr ⟨s.lowRegs x, by simp, fun k hk =>
        writeCheck_none.1 (firstFailing_none.1 hn k (hk.trans_le hlen))⟩
  case ldVxMem => left; simp only [exec, execLdVxMem] at h; split at h <;> cases h <;> simp
  all_goals (cases h; exact .inl rfl)

/-- The call stack moves by one push or one pop, or not at all (R28). -/
theorem exec_stack {i : Instr} {s t : State} (h : exec i s = .next t) :
    (t.stack = s.stack ∧ t.sp ≤ s.sp) ∨
      (s.sp < s.sizes.stackDepth ∧ t.sp = s.sp + 1 ∧ ∃ a, t.stack = s.stack.set s.sp a) := by
  have guard : ∀ {op r x y u}, u.stack = s.stack → u.sp = s.sp → aluGuard op r x y u s = .next t →
      t.stack = s.stack ∧ t.sp ≤ s.sp := by
    intro op r x y u hu hsp h
    unfold aluGuard at h
    split at h <;> cases h
    · exact ⟨rfl, le_rfl⟩
    · exact ⟨hu, by simp [hsp]⟩
  cases i
  case ret =>
    left; simp only [exec, execRet] at h
    split at h
    · cases h; exact ⟨rfl, le_rfl⟩
    · rename_i hp
      obtain ⟨_, _, rfl⟩ := s.pop_some hp
      cases h; exact ⟨rfl, by simp⟩
  case call =>
    simp only [exec, execCall] at h
    split at h
    · cases h; exact .inl ⟨rfl, le_rfl⟩
    · rename_i hp
      obtain ⟨hlt, rfl⟩ := s.push_some hp
      cases h; exact .inr ⟨hlt, rfl, s.pc, rfl⟩
  case ldReg => exact .inl (guard (State.setV_stack ..) (State.setV_sp ..) h)
  case orReg => exact .inl (guard (State.setV_stack ..) (State.setV_sp ..) h)
  case andReg => exact .inl (guard (State.setV_stack ..) (State.setV_sp ..) h)
  case xorReg => exact .inl (guard (State.setV_stack ..) (State.setV_sp ..) h)
  case addReg => exact .inl (guard (State.setResultFlag_stack ..) (State.setResultFlag_sp ..) h)
  case sub => exact .inl (guard (State.setResultFlag_stack ..) (State.setResultFlag_sp ..) h)
  case shr => exact .inl (guard (State.setResultFlag_stack ..) (State.setResultFlag_sp ..) h)
  case subn => exact .inl (guard (State.setResultFlag_stack ..) (State.setResultFlag_sp ..) h)
  case shl => exact .inl (guard (State.setResultFlag_stack ..) (State.setResultFlag_sp ..) h)
  case seImm => cases h; simp
  case sneImm => cases h; simp
  case seReg => cases h; simp
  case sneReg => cases h; simp
  case drw => left; simp only [exec, execDrw] at h; split at h <;> cases h <;> exact ⟨rfl, le_rfl⟩
  case skp => left; simp only [exec, execSkp] at h; split at h <;> cases h <;> simp
  case sknp => left; simp only [exec, execSknp] at h; split at h <;> cases h <;> simp
  case ldFVx => left; simp only [exec, execLdFVx] at h; split at h <;> cases h <;> exact ⟨rfl, le_rfl⟩
  case ldVxK => cases h; left; unfold State.awaitKey; split <;> exact ⟨rfl, le_rfl⟩
  case ldBVx => left; simp only [exec, execLdBVx] at h; split at h <;> cases h <;> simp
  case ldMemVx => left; simp only [exec, execLdMemVx] at h; split at h <;> cases h <;> simp
  case ldVxMem => left; simp only [exec, execLdVxMem] at h; split at h <;> cases h <;> simp
  all_goals (cases h; exact .inl ⟨rfl, le_rfl⟩)

/-- What an instruction does to the framebuffer: nothing, or CLS, or the SetPixel calls of one sprite (R36,
R73, R100). -/
theorem exec_fb {i : Instr} {s t : State} (h : exec i s = .next t) :
    t.fb = s.fb ∨ t.fb = clearFB ∨ ∃ x y n, t.fb = (drawPixels (s.fb, false) (s.spriteAt x y n)).1 := by
  have guard : ∀ {op r x y u}, u.fb = s.fb → aluGuard op r x y u s = .next t → t.fb = s.fb := by
    intro op r x y u hu h
    unfold aluGuard at h
    split at h <;> cases h
    · rfl
    · exact hu
  cases i
  case cls => cases h; exact .inr (.inl rfl)
  case drw x y n =>
    simp only [exec, execDrw] at h
    split at h <;> cases h
    · exact .inl rfl
    · exact .inr (.inr ⟨x, y, n, rfl⟩)
  case ret =>
    left; simp only [exec, execRet] at h
    split at h
    · cases h; rfl
    · rename_i hp
      obtain ⟨_, _, rfl⟩ := s.pop_some hp
      cases h; rfl
  case call =>
    left; simp only [exec, execCall] at h
    split at h
    · cases h; rfl
    · rename_i hp
      obtain ⟨_, rfl⟩ := s.push_some hp
      cases h; rfl
  case ldReg => exact .inl (guard (State.setV_fb ..) h)
  case orReg => exact .inl (guard (State.setV_fb ..) h)
  case andReg => exact .inl (guard (State.setV_fb ..) h)
  case xorReg => exact .inl (guard (State.setV_fb ..) h)
  case addReg => exact .inl (guard (State.setResultFlag_fb ..) h)
  case sub => exact .inl (guard (State.setResultFlag_fb ..) h)
  case shr => exact .inl (guard (State.setResultFlag_fb ..) h)
  case subn => exact .inl (guard (State.setResultFlag_fb ..) h)
  case shl => exact .inl (guard (State.setResultFlag_fb ..) h)
  case seImm => cases h; simp
  case sneImm => cases h; simp
  case seReg => cases h; simp
  case sneReg => cases h; simp
  case skp => left; simp only [exec, execSkp] at h; split at h <;> cases h <;> simp
  case sknp => left; simp only [exec, execSknp] at h; split at h <;> cases h <;> simp
  case ldFVx => left; simp only [exec, execLdFVx] at h; split at h <;> cases h <;> rfl
  case ldVxK => cases h; left; unfold State.awaitKey; split <;> rfl
  case ldBVx => left; simp only [exec, execLdBVx] at h; split at h <;> cases h <;> simp
  case ldMemVx => left; simp only [exec, execLdMemVx] at h; split at h <;> cases h <;> simp
  case ldVxMem => left; simp only [exec, execLdVxMem] at h; split at h <;> cases h <;> simp
  all_goals (cases h; exact .inl rfl)

/-! ### The step -/

/-- What one call of Step on a core that is not halted does (R58, R66, R68): a FETCH fault, an
UnknownOpcode fault, or the fetched instruction on the advanced state. -/
inductive CoreStepEnd (s t : State) : Prop where
  | fetchFault (hf : s.fetch = none)
      (h : t = s.takeFault ⟨.outOfBoundsAccess .fetch, s.pc, none, some s.pc.toNat⟩)
  | unknown (op : Word) (hf : s.fetch = some op) (hd : decodeFamily s.policy op = none)
      (h : t = s.advance.takeFault ⟨.unknownOpcode, s.pc, some op, none⟩)
  | exec (op : Word) (i : Instr) (hf : s.fetch = some op) (hd : decode s.policy op = .ok i)
      (h : exec i s.advance = .next t)

theorem coreStep_end {s t : State} (h : coreStep s = .next t) : CoreStepEnd s t := by
  unfold coreStep at h
  split at h
  · rename_i hf; cases h; exact .fetchFault hf rfl
  · rename_i op hf
    split at h
    · rename_i w hd
      obtain ⟨hn, hw⟩ := (decode_error_iff _ _ _).1 hd
      cases hw; cases h
      exact .unknown op hf hn (by simp [State.advance])
    · rename_i i hd; exact .exec op i hf hd h

/-- A core that is not halted always has a next state. -/
theorem coreStep_total (s : State) : ∃ t, coreStep s = .next t := by
  unfold coreStep
  split
  · exact ⟨_, rfl⟩
  · split
    · exact ⟨_, rfl⟩
    · exact exec_total _ _

/-- A step with a next state is a core step from the ticked state, on a core that is not halted, after
which the next inputs are drawn. -/
theorem step_next {s u : State} (h : step s = .next u) :
    s.fault = none ∧ ∃ t, coreStep s.applyTicks = .next t ∧ u = t.drawInputs := by
  unfold step at h
  split at h
  · cases h
  · rename_i hf
    obtain ⟨t, ht⟩ := coreStep_total s.applyTicks
    rw [ht] at h; cases h
    exact ⟨hf, t, ht, rfl⟩

theorem step_of_coreStep {s t : State} (hf : s.fault = none) (h : coreStep s.applyTicks = .next t) :
    step s = .next t.drawInputs := by
  unfold step; rw [hf]; simp only [h, afterStep]

end Sys2Proof.Machine
end

