-- ==== Sys2Proof/Laws/PerInstr.lean ====
section
/-! SUPPORT. Per-instruction laws. TableRow: the word the encoder writes for an instruction is a word of
that instruction's row of spec/opcode_table.json, whose mask and match are written out here. -/

namespace Sys2Proof.Laws.TableRow

/-- The mask of an instruction's row (under the default STRICT_LOW_NIBBLE). -/
def mask : Instr → Word
  | .cls => 0xFFFF
  | .ret => 0xFFFF
  | .sys _ => 0xF000
  | .jp _ => 0xF000
  | .call _ => 0xF000
  | .seImm _ _ => 0xF000
  | .sneImm _ _ => 0xF000
  | .seReg _ _ => 0xF00F
  | .ldImm _ _ => 0xF000
  | .addImm _ _ => 0xF000
  | .ldReg _ _ => 0xF00F
  | .orReg _ _ => 0xF00F
  | .andReg _ _ => 0xF00F
  | .xorReg _ _ => 0xF00F
  | .addReg _ _ => 0xF00F
  | .sub _ _ => 0xF00F
  | .shr _ _ => 0xF00F
  | .subn _ _ => 0xF00F
  | .shl _ _ => 0xF00F
  | .sneReg _ _ => 0xF00F
  | .ldI _ => 0xF000
  | .jpV0 _ => 0xF000
  | .rnd _ _ => 0xF000
  | .drw _ _ _ => 0xF000
  | .skp _ => 0xF0FF
  | .sknp _ => 0xF0FF
  | .ldVxDt _ => 0xF0FF
  | .ldVxK _ => 0xF0FF
  | .ldDtVx _ => 0xF0FF
  | .ldStVx _ => 0xF0FF
  | .addIVx _ => 0xF0FF
  | .ldFVx _ => 0xF0FF
  | .ldBVx _ => 0xF0FF
  | .ldMemVx _ => 0xF0FF
  | .ldVxMem _ => 0xF0FF

/-- The match of an instruction's row. -/
def value : Instr → Word
  | .cls => 0x00E0
  | .ret => 0x00EE
  | .sys _ => 0x0000
  | .jp _ => 0x1000
  | .call _ => 0x2000
  | .seImm _ _ => 0x3000
  | .sneImm _ _ => 0x4000
  | .seReg _ _ => 0x5000
  | .ldImm _ _ => 0x6000
  | .addImm _ _ => 0x7000
  | .ldReg _ _ => 0x8000
  | .orReg _ _ => 0x8001
  | .andReg _ _ => 0x8002
  | .xorReg _ _ => 0x8003
  | .addReg _ _ => 0x8004
  | .sub _ _ => 0x8005
  | .shr _ _ => 0x8006
  | .subn _ _ => 0x8007
  | .shl _ _ => 0x800E
  | .sneReg _ _ => 0x9000
  | .ldI _ => 0xA000
  | .jpV0 _ => 0xB000
  | .rnd _ _ => 0xC000
  | .drw _ _ _ => 0xD000
  | .skp _ => 0xE09E
  | .sknp _ => 0xE0A1
  | .ldVxDt _ => 0xF007
  | .ldVxK _ => 0xF00A
  | .ldDtVx _ => 0xF015
  | .ldStVx _ => 0xF018
  | .addIVx _ => 0xF01E
  | .ldFVx _ => 0xF029
  | .ldBVx _ => 0xF033
  | .ldMemVx _ => 0xF055
  | .ldVxMem _ => 0xF065

/-- The encoder's word lies in the instruction's row. -/
def Statement (i : Instr) : Prop := encode i &&& mask i = value i

theorem fmtA_row (f : Nibble) (nnn : Addr) : fmtA f nnn &&& 0xF000 = fmtA f 0 := by
  unfold fmtA; ext i hi; interval_cases i <;> simp

theorem fmtXI_row (f : Nibble) (x : Reg) (nn : Byte) : fmtXI f x nn &&& 0xF000 = fmtXI f 0 0 := by
  unfold fmtXI; ext i hi; interval_cases i <;> simp [bitsOfReg]

theorem fmtXS_row (f : Nibble) (x : Reg) (nn : Byte) : fmtXI f x nn &&& 0xF0FF = fmtXI f 0 nn := by
  unfold fmtXI; ext i hi; interval_cases i <;> simp [bitsOfReg]

theorem fmtXYS_row (f : Nibble) (x y : Reg) (n : Nibble) :
    fmtXYN f x y n &&& 0xF00F = fmtXYN f 0 0 n := by
  unfold fmtXYN; ext i hi; interval_cases i <;> simp [bitsOfReg]

theorem fmtXYN_row (f : Nibble) (x y : Reg) (n : Nibble) :
    fmtXYN f x y n &&& 0xF000 = fmtXYN f 0 0 0 := by
  unfold fmtXYN; ext i hi; interval_cases i <;> simp [bitsOfReg]

theorem cls : Statement .cls :=
  by unfold Statement; decide

theorem ret : Statement .ret :=
  by unfold Statement; decide

theorem sys (nnn : Addr) : Statement (.sys nnn) :=
  (fmtA_row _ _).trans rfl

theorem jp (nnn : Addr) : Statement (.jp nnn) :=
  (fmtA_row _ _).trans rfl

theorem call (nnn : Addr) : Statement (.call nnn) :=
  (fmtA_row _ _).trans rfl

theorem seImm (x : Reg) (nn : Byte) : Statement (.seImm x nn) :=
  (fmtXI_row _ _ _).trans rfl

theorem sneImm (x : Reg) (nn : Byte) : Statement (.sneImm x nn) :=
  (fmtXI_row _ _ _).trans rfl

theorem seReg (x y : Reg) : Statement (.seReg x y) :=
  (fmtXYS_row _ _ _ _).trans rfl

theorem ldImm (x : Reg) (nn : Byte) : Statement (.ldImm x nn) :=
  (fmtXI_row _ _ _).trans rfl

theorem addImm (x : Reg) (nn : Byte) : Statement (.addImm x nn) :=
  (fmtXI_row _ _ _).trans rfl

theorem ldReg (x y : Reg) : Statement (.ldReg x y) :=
  (fmtXYS_row _ _ _ _).trans rfl

theorem orReg (x y : Reg) : Statement (.orReg x y) :=
  (fmtXYS_row _ _ _ _).trans rfl

theorem andReg (x y : Reg) : Statement (.andReg x y) :=
  (fmtXYS_row _ _ _ _).trans rfl

theorem xorReg (x y : Reg) : Statement (.xorReg x y) :=
  (fmtXYS_row _ _ _ _).trans rfl

theorem addReg (x y : Reg) : Statement (.addReg x y) :=
  (fmtXYS_row _ _ _ _).trans rfl

theorem sub (x y : Reg) : Statement (.sub x y) :=
  (fmtXYS_row _ _ _ _).trans rfl

theorem shr (x y : Reg) : Statement (.shr x y) :=
  (fmtXYS_row _ _ _ _).trans rfl

theorem subn (x y : Reg) : Statement (.subn x y) :=
  (fmtXYS_row _ _ _ _).trans rfl

theorem shl (x y : Reg) : Statement (.shl x y) :=
  (fmtXYS_row _ _ _ _).trans rfl

theorem sneReg (x y : Reg) : Statement (.sneReg x y) :=
  (fmtXYS_row _ _ _ _).trans rfl

theorem ldI (nnn : Addr) : Statement (.ldI nnn) :=
  (fmtA_row _ _).trans rfl

theorem jpV0 (nnn : Addr) : Statement (.jpV0 nnn) :=
  (fmtA_row _ _).trans rfl

theorem rnd (x : Reg) (nn : Byte) : Statement (.rnd x nn) :=
  (fmtXI_row _ _ _).trans rfl

theorem drw (x y : Reg) (n : Nibble) : Statement (.drw x y n) :=
  (fmtXYN_row _ _ _ _).trans rfl

theorem skp (x : Reg) : Statement (.skp x) :=
  (fmtXS_row _ _ _).trans rfl

theorem sknp (x : Reg) : Statement (.sknp x) :=
  (fmtXS_row _ _ _).trans rfl

theorem ldVxDt (x : Reg) : Statement (.ldVxDt x) :=
  (fmtXS_row _ _ _).trans rfl

theorem ldVxK (x : Reg) : Statement (.ldVxK x) :=
  (fmtXS_row _ _ _).trans rfl

theorem ldDtVx (x : Reg) : Statement (.ldDtVx x) :=
  (fmtXS_row _ _ _).trans rfl

theorem ldStVx (x : Reg) : Statement (.ldStVx x) :=
  (fmtXS_row _ _ _).trans rfl

theorem addIVx (x : Reg) : Statement (.addIVx x) :=
  (fmtXS_row _ _ _).trans rfl

theorem ldFVx (x : Reg) : Statement (.ldFVx x) :=
  (fmtXS_row _ _ _).trans rfl

theorem ldBVx (x : Reg) : Statement (.ldBVx x) :=
  (fmtXS_row _ _ _).trans rfl

theorem ldMemVx (x : Reg) : Statement (.ldMemVx x) :=
  (fmtXS_row _ _ _).trans rfl

theorem ldVxMem (x : Reg) : Statement (.ldVxMem x) :=
  (fmtXS_row _ _ _).trans rfl

end Sys2Proof.Laws.TableRow
end

