-- ==== Sys2Proof/Tests/Slice0.lean ====
section
/-! SUPPORT. The model's own tests. Expected results come from spec/: the words from 30_encoding.md R62 and
R64, the outcomes from the vectors of 95_test_vectors.md, whose ids stand in the comments. Then one witness
for the hypotheses of each obligation that has some. -/

namespace Sys2Proof.Tests

open Sys2Proof.Machine

/-! ### Helpers -/

/-- The reset state with every input 0 in place of the free draw. -/
def base : State := { State.reset with inputs := ⟨0, 0, 0, 0⟩ }

/-- A field of the next state, where there is one. -/
def after {α : Type} (f : State → α) : Host.Outcome State Fault Refusal → Option α
  | .next t => some (f t)
  | .fault _ => none
  | .refused _ => none

/-- A field of the state after one step that runs this word. -/
def ran {α : Type} (op : Nat) (s : State) (f : State → α) : Option α :=
  after f (step (s.withFetchWord 16 op))

/-- V1 and V2 given. -/
def with12 (a b : Byte) : State := (base.setV 1 a).setV 2 b

/-- I given. -/
def withI (i : Word) (s : State := base) : State := { s with index := i }

/-- PC given. -/
def withPc (pc : Word) (s : State := base) : State := { s with pc := pc }

/-- The keys that are down given. -/
def withKeys (keys : BitVec 16) (s : State := base) : State :=
  { s with inputs := { s.inputs with keys := keys } }

/-- A policy given. -/
def withPolicy (p : Policy) (s : State := base) : State := { s with policy := p }

/-- A policy that differs from the default in every parameter. -/
def otherPolicy : Policy where
  vfAluOperand    := .flagLast
  shiftSource     := .vy
  strictLowNibble := .ignore
  fetchCheck      := .bounds
  fontWrite       := .allow
  fontDigitRange  := .mask
  keyIndexRange   := .mask
  keywaitPick     := .any
  ldstIncrementI  := .xPlus1
  fontTable       := defaultFont

/-- Sizes that differ from the default in every parameter. -/
def otherSizes : Sizes where
  memSize    := 0x400
  progBase   := 0x100
  fontBase   := 0x50
  glyphBytes := 6
  stackDepth := 2
  fbW        := 4
  fbH        := 3

/-- The reset state under other sizes, and every input 0. -/
def small : State := { State.resetWith otherSizes .default with inputs := ⟨0, 0, 0, 0⟩ }

/-- The halt record of a fault of the instruction at 0x200. -/
def at200 (kind : FaultKind) (op : Word) (info : Option Nat) : Option (Option FaultRecord × Word) :=
  some (some ⟨kind, 0x200, some op, info⟩, 0x200)

/-- The halt record and the pc. -/
def halt (s : State) : Option FaultRecord × Word := (s.fault, s.pc)

/-! ### Well-formedness: the check and ill-formed terms it refuses (R75) -/

theorem test_sys_cls_illformed : (Instr.sys 0x0E0).wellFormed = false := by decide
theorem test_sys_ret_illformed : (Instr.sys 0x0EE).wellFormed = false := by decide
theorem test_sys_wellformed : (Instr.sys 0x0E1).wellFormed = true := by decide

/-! ### Decoding: each constructor's word, written out from R62 and R64 -/

theorem test_decode_family0 :
    decodeTableWord 16 0x00E0 = some .cls ∧ decodeTableWord 16 0x00EE = some .ret ∧
    decodeTableWord 16 0x0000 = some (.sys 0x000) ∧ decodeTableWord 16 0x00E1 = some (.sys 0x0E1) ∧
    decodeTableWord 16 0x0FFF = some (.sys 0xFFF) := by decide
theorem test_decode_jumps :
    decodeTableWord 16 0x1ABC = some (.jp 0xABC) ∧ decodeTableWord 16 0x2300 = some (.call 0x300) ∧
    decodeTableWord 16 0xB123 = some (.jpV0 0x123) := by decide
theorem test_decode_skips :
    decodeTableWord 16 0x3A42 = some (.seImm 0xA 0x42) ∧
    decodeTableWord 16 0x4B42 = some (.sneImm 0xB 0x42) ∧
    decodeTableWord 16 0x5120 = some (.seReg 1 2) ∧ decodeTableWord 16 0x9340 = some (.sneReg 3 4) ∧
    decodeTableWord 16 0xE59E = some (.skp 5) ∧ decodeTableWord 16 0xE6A1 = some (.sknp 6) := by decide
theorem test_decode_immediates :
    decodeTableWord 16 0x6005 = some (.ldImm 0 5) ∧ decodeTableWord 16 0x7F01 = some (.addImm 0xF 1) ∧
    decodeTableWord 16 0xA2F0 = some (.ldI 0x2F0) ∧ decodeTableWord 16 0xC30F = some (.rnd 3 0x0F) ∧
    decodeTableWord 16 0xD125 = some (.drw 1 2 5) := by decide
theorem test_decode_family8 :
    decodeTableWord 16 0x8120 = some (.ldReg 1 2) ∧ decodeTableWord 16 0x8121 = some (.orReg 1 2) ∧
    decodeTableWord 16 0x8122 = some (.andReg 1 2) ∧ decodeTableWord 16 0x8123 = some (.xorReg 1 2) ∧
    decodeTableWord 16 0x8124 = some (.addReg 1 2) ∧ decodeTableWord 16 0x8125 = some (.sub 1 2) ∧
    decodeTableWord 16 0x8126 = some (.shr 1 2) ∧ decodeTableWord 16 0x8127 = some (.subn 1 2) ∧
    decodeTableWord 16 0x812E = some (.shl 1 2) := by decide
theorem test_decode_familyF :
    decodeTableWord 16 0xF207 = some (.ldVxDt 2) ∧ decodeTableWord 16 0xF30A = some (.ldVxK 3) ∧
    decodeTableWord 16 0xF215 = some (.ldDtVx 2) ∧ decodeTableWord 16 0xF218 = some (.ldStVx 2) ∧
    decodeTableWord 16 0xF11E = some (.addIVx 1) ∧ decodeTableWord 16 0xF229 = some (.ldFVx 2) ∧
    decodeTableWord 16 0xF333 = some (.ldBVx 3) ∧ decodeTableWord 16 0xF255 = some (.ldMemVx 2) ∧
    decodeTableWord 16 0xF265 = some (.ldVxMem 2) := by decide
/-- E-7, E-8, E-9, E-10, S-6, S-7, A-28. -/
theorem test_decode_unknown :
    ∀ op ∈ [0x8008, 0x8F18, 0xE000, 0xE09F, 0xE0A0, 0xF000, 0xF019, 0xF0FF, 0xF056, 0x5121, 0x912F, 0x812F],
      decodeTableWord 16 op = none := by decide

/-! ### Fetch and decode faults -/

/-- E-1: the word is fetched big-endian. -/
theorem test_fetch_big_endian :
    after State.pc (step (base.storeBytes 0x200 [0x12, 0x34])) = some 0x234 := by decide
/-- E-2, E-3, E-5, E-6. -/
theorem test_fetch_faults :
    ∀ pc ∈ [0x201, 0x100, 0x1000, 0xFFF], after halt (step (withPc (BitVec.ofNat 16 pc))) =
      some (some ⟨.outOfBoundsAccess .fetch, BitVec.ofNat 16 pc, none, some pc⟩, BitVec.ofNat 16 pc) := by
  decide
/-- E-4: the last address a fetch may use. -/
theorem test_fetch_last : ran 0x1FFE (withPc 0xFFE) State.pc = some 0xFFE := by decide
/-- E-3 under BOUNDS. -/
theorem test_fetch_bounds :
    after State.pc (step (withPc 0x100 (withPolicy otherPolicy))) = some 0x102 := by decide
/-- E-7. -/
theorem test_unknown_opcode : ran 0x8008 base halt = at200 .unknownOpcode 0x8008 none := by decide
/-- H-4: a halted core takes no step (R116). -/
theorem test_halted :
    after halt (step { base with fault := some ⟨.stackUnderflow, 0x202, some 0x00EE, none⟩ }) = none := by
  decide
/-- R114. -/
theorem test_fault_codes :
    [FaultKind.stackOverflow, .stackUnderflow, .outOfBoundsAccess .read, .unknownOpcode].map
      FaultKind.code = [1, 2, 3, 4] := by decide

/-! ### Families 0, 1, 2 and B -/

/-- Z-1. -/
theorem test_cls :
    ran 0x00E0 { base with fb := togglePixel clearFB 5 5 }
      (fun t => (t.pixel 5 5, t.pc, t.result)) = some (false, 0x202, some (.done true)) := by decide
/-- Z-3: the popped slot is not cleared. -/
theorem test_ret :
    ran 0x00EE { base with pc := 0x400, sp := 2, stack := (base.stack.set 0 0x20A).set 1 0x30C }
      (fun t => (t.pc, t.sp, t.stack[1]?)) = some (0x30C, 1, some 0x30C) := by decide
/-- Z-4. -/
theorem test_ret_underflow : ran 0x00EE base halt = at200 .stackUnderflow 0x00EE none := by decide
/-- Z-8. -/
theorem test_sys :
    ran 0x00E1 base (fun t => (t.pc, t.result)) = some (0x202, some (.done false)) := by decide
/-- J-1. -/
theorem test_jp : ran 0x1ABC base State.pc = some 0xABC := by decide
/-- C-2. -/
theorem test_call :
    ran 0x2300 { base with sp := 15 } (fun t => (t.stack[15]?, t.sp, t.pc)) =
      some (some 0x202, 16, 0x300) := by decide
/-- C-3. -/
theorem test_call_overflow :
    ran 0x2300 { base with sp := 16 } halt = at200 .stackOverflow 0x2300 none := by decide
/-- B-2, B-5: not masked to 12 bits, and V0 whatever the X digit is. -/
theorem test_jp_v0 :
    ran 0xBFF0 (base.setV 0 0x20) State.pc = some 0x1010 ∧
    ran 0xB300 (base.setV 3 0x10) State.pc = some 0x300 := by decide

/-! ### Skips -/

/-- L1-6. -/
theorem test_se_imm :
    ran 0x3342 (base.setV 3 0x42) State.pc = some 0x204 ∧
    ran 0x3342 (base.setV 3 0x41) State.pc = some 0x202 := by decide
/-- L1-6. -/
theorem test_sne_imm :
    ran 0x4342 (base.setV 3 0x41) State.pc = some 0x204 ∧
    ran 0x4342 (base.setV 3 0x42) State.pc = some 0x202 := by decide
/-- L1-6. -/
theorem test_se_reg :
    ran 0x5120 (with12 7 7) State.pc = some 0x204 ∧ ran 0x5120 (with12 7 8) State.pc = some 0x202 := by
  decide
/-- L1-6. -/
theorem test_sne_reg :
    ran 0x9120 (with12 7 8) State.pc = some 0x204 ∧ ran 0x9120 (with12 7 7) State.pc = some 0x202 := by
  decide
/-- S-6, S-7 under STRICT_LOW_NIBBLE = IGNORE. -/
theorem test_low_nibble_ignored :
    ran 0x5121 (withPolicy otherPolicy) State.pc = some 0x204 ∧
    ran 0x912F (withPolicy otherPolicy (with12 1 0)) State.pc = some 0x204 := by decide
/-- K-1, K-2. -/
theorem test_skp :
    ran 0xE59E (withKeys 0x0400 (base.setV 5 0x0A)) State.pc = some 0x204 ∧
    ran 0xE59E (base.setV 5 0x0A) State.pc = some 0x202 := by decide
/-- K-3, K-4. -/
theorem test_sknp :
    ran 0xE5A1 (base.setV 5 0x0A) State.pc = some 0x204 ∧
    ran 0xE5A1 (withKeys 0x0400 (base.setV 5 0x0A)) State.pc = some 0x202 := by decide
/-- K-5, K-6. -/
theorem test_key_index_range :
    ran 0xE59E (base.setV 5 0x10) halt = at200 (.outOfBoundsAccess .keyIndex) 0xE59E (some 0x10) ∧
    ran 0xE59E (withPolicy otherPolicy (withKeys 0x0400 (base.setV 5 0x1A))) State.pc = some 0x204 := by
  decide

/-! ### Families 6, 7 and 8 -/

/-- L-1, L-2. -/
theorem test_ld_imm :
    ran 0x6005 base (State.getV · 0) = some 0x05 ∧ ran 0x6FAA base (State.getV · VF) = some 0xAA := by
  decide
/-- L-3: the sum wraps and VF stays. -/
theorem test_add_imm :
    ran 0x7103 ((base.setV 1 0xFE).setV VF 0x55) (fun t => (t.getV 1, t.getV VF)) = some (0x01, 0x55) := by
  decide
/-- A-1. -/
theorem test_ld_reg : ran 0x8120 (with12 0 0x99) (State.getV · 1) = some 0x99 := by decide
/-- A-2, A-3, A-4: VF keeps 0x77. -/
theorem test_logic :
    ran 0x8121 ((with12 0xF0 0x0F).setV VF 0x77) (fun t => (t.getV 1, t.getV VF)) = some (0xFF, 0x77) ∧
    ran 0x8122 ((with12 0xF0 0x3C).setV VF 0x77) (fun t => (t.getV 1, t.getV VF)) = some (0x30, 0x77) ∧
    ran 0x8123 ((with12 0xF0 0x3C).setV VF 0x77) (fun t => (t.getV 1, t.getV VF)) = some (0xCC, 0x77) := by
  decide
/-- L1-1, A-6. -/
theorem test_add :
    ran 0x8124 (with12 0xC8 0x64) (fun t => (t.getV 1, t.getV VF, t.getV 2)) = some (0x2C, 1, 0x64) ∧
    ran 0x8124 (with12 0x80 0x7F) (fun t => (t.getV 1, t.getV VF)) = some (0xFF, 0) ∧
    ran 0x8114 (with12 0x81 0) (fun t => (t.getV 1, t.getV VF)) = some (0x02, 1) := by decide
/-- L1-2. -/
theorem test_sub :
    ran 0x8125 (with12 0x07 0x05) (fun t => (t.getV 1, t.getV VF)) = some (0x02, 1) ∧
    ran 0x8125 (with12 0x05 0x07) (fun t => (t.getV 1, t.getV VF)) = some (0xFE, 0) ∧
    ran 0x8125 (with12 0x05 0x05) (fun t => (t.getV 1, t.getV VF)) = some (0x00, 1) := by decide
/-- A-9, A-10. -/
theorem test_subn :
    ran 0x8127 (with12 0x07 0x05) (fun t => (t.getV 1, t.getV VF)) = some (0xFE, 0) ∧
    ran 0x8127 (with12 0x05 0x07) (fun t => (t.getV 1, t.getV VF)) = some (0x02, 1) := by decide
/-- A-12, and A-17 under both sources. -/
theorem test_shr :
    ran 0x8106 (with12 0x05 0) (fun t => (t.getV 1, t.getV VF)) = some (0x02, 1) ∧
    ran 0x8126 (with12 0x00 0x03) (fun t => (t.getV 1, t.getV VF)) = some (0x00, 0) ∧
    ran 0x8126 (withPolicy otherPolicy (with12 0x00 0x03)) (fun t => (t.getV 1, t.getV VF)) =
      some (0x01, 1) := by decide
/-- A-18, and A-21 under both sources. -/
theorem test_shl :
    ran 0x810E (with12 0x81 0) (fun t => (t.getV 1, t.getV VF)) = some (0x02, 1) ∧
    ran 0x812E (with12 0x01 0xC0) (fun t => (t.getV 1, t.getV VF)) = some (0x02, 0) ∧
    ran 0x812E (withPolicy otherPolicy (with12 0x01 0xC0)) (fun t => (t.getV 1, t.getV VF)) =
      some (0x80, 1) := by decide
/-- A-22, A-23, A-25, A-26. -/
theorem test_vf_operand_faults :
    ran 0x8F14 base halt = at200 (.outOfBoundsAccess .register) 0x8F14 (some 15) ∧
    ran 0x81F4 base halt = at200 (.outOfBoundsAccess .register) 0x81F4 (some 15) ∧
    ran 0x8F06 base halt = at200 (.outOfBoundsAccess .register) 0x8F06 (some 15) ∧
    ran 0x81F6 (with12 0x04 0) (fun t => (t.getV 1, t.getV VF)) = some (0x02, 0) ∧
    ran 0x81F6 (withPolicy { Policy.default with shiftSource := .vy }) halt =
      at200 (.outOfBoundsAccess .register) 0x81F6 (some 15) := by decide
/-- A-23, A-24 under FLAG_LAST. -/
theorem test_flag_last :
    ran 0x81F4 (withPolicy otherPolicy ((base.setV 1 0xF0).setV VF 0x20))
      (fun t => (t.getV 1, t.getV VF)) = some (0x10, 1) ∧
    ran 0x8F14 (withPolicy otherPolicy ((base.setV 1 0x20).setV VF 0x10)) (State.getV · VF) = some 0 := by
  decide

/-! ### Families A, C and D -/

/-- I-1. -/
theorem test_ld_i : ran 0xA2F0 base State.index = some 0x2F0 := by decide
/-- R-1. -/
theorem test_rnd :
    ran 0xC30F { base with inputs := ⟨0, 0xB7, 0, 0⟩ } (State.getV · 3) = some 0x07 := by decide
/-- D-1: a column wraps. -/
theorem test_drw_wraps_columns :
    ran 0xD011 (withI 0x300 ((base.setV 0 60).storeByte 0x300 0x81))
      (fun t => (t.pixel 60 0, t.pixel 3 0, t.pixel 61 0, t.getV VF, t.result)) =
      some (true, true, false, 0, some (.done true)) := by decide
/-- D-5, D-7: a collision, and a fault that draws nothing. -/
theorem test_drw_collision_and_fault :
    ran 0xD011 (withI 0x300 ({ base with fb := togglePixel clearFB 0 0 }.storeByte 0x300 0xC0))
      (fun t => (t.pixel 0 0, t.pixel 1 0, t.getV VF)) = some (false, true, 1) ∧
    ran 0xD012 (withI 0xFFF) halt = at200 (.outOfBoundsAccess .read) 0xD012 (some 0x1000) := by decide

/-! ### Family F -/

/-- F-1, and F-5: the host ticks three times before the step. -/
theorem test_ld_vx_dt :
    ran 0xF207 { base with dt := 0x3C } (State.getV · 2) = some 0x3C ∧
    ran 0xF207 { base with dt := 0x3C, inputs := ⟨0, 0, 3, 0⟩ } (State.getV · 2) = some 0x39 := by decide
/-- F-2. -/
theorem test_ld_dt_vx : ran 0xF215 (with12 0 0x3C) State.dt = some 0x3C := by decide
/-- F-3. -/
theorem test_ld_st_vx : ran 0xF218 (with12 0 0x05) State.st = some 0x05 := by decide
/-- F-4: a timer stops at 0. -/
theorem test_tick :
    ({ base with dt := 1 }.tickTimers.dt, { base with dt := 1 }.tickTimers.st) = (0, 0) := by decide
/-- F-6, F-8. -/
theorem test_key_wait :
    ran 0xF30A base (fun t => (t.pc, t.getV 3, t.result)) = some (0x200, 0, some .stall) ∧
    ran 0xFF0A (withKeys 0x8000) (fun t => (t.pc, t.getV VF)) = some (0x202, 0x0F) := by decide
/-- F-7 under LOWEST, and under ANY with each of the two keys as the free choice. -/
theorem test_key_wait_pick :
    ran 0xF40A (withKeys 0x0088) (State.getV · 4) = some 3 ∧
    ran 0xF40A { withPolicy otherPolicy with inputs := ⟨0x0088, 0, 0, 3⟩ } (State.getV · 4) = some 3 ∧
    ran 0xF40A { withPolicy otherPolicy with inputs := ⟨0x0088, 0, 0, 7⟩ } (State.getV · 4) = some 7 := by
  decide
/-- F-10, F-11. -/
theorem test_add_i :
    ran 0xF11E (withI 0xFFFF ((base.setV 1 1).setV VF 9)) (fun t => (t.index, t.getV VF)) = some (0, 9) ∧
    ran 0xF11E (withI 0x0FFF (base.setV 1 1)) State.index = some 0x1000 := by decide
/-- F-13. -/
theorem test_ld_f : ran 0xF229 (with12 0 0x0F) State.index = some 0x04B := by decide
/-- F-14, and under MASK. -/
theorem test_ld_f_range :
    ran 0xF229 (with12 0 0x10) halt = at200 (.outOfBoundsAccess .fontDigit) 0xF229 (some 0x10) ∧
    ran 0xF229 (withPolicy otherPolicy (with12 0 0x10)) State.index = some 0x000 := by decide
/-- F-15. -/
theorem test_ld_b :
    ran 0xF333 (withI 0x300 (base.setV 3 156)) (State.loadBytes · 0x300 3) = some [1, 5, 6] := by decide
/-- F-18, F-19. -/
theorem test_ld_b_faults :
    ran 0xF333 (withI 0xFFE (base.setV 3 123)) halt =
      at200 (.outOfBoundsAccess .write) 0xF333 (some 0x1000) ∧
    ran 0xF033 (withI 0x04E (base.setV 0 7)) halt =
      at200 (.outOfBoundsAccess .fontWrite) 0xF033 (some 0x04E) ∧
    ran 0xF033 (withI 0x04E (withPolicy otherPolicy (base.setV 0 7))) (State.loadBytes · 0x04E 3) =
      some [0, 0, 7] := by decide
/-- F-20, and under X_PLUS_1. -/
theorem test_ld_mem_vx :
    ran 0xF255 (withI 0x400 ((with12 2 3).setV 0 1)) (fun t => (t.loadBytes 0x400 4, t.index)) =
      some ([1, 2, 3, 0], 0x400) ∧
    ran 0xF255 (withI 0x400 (withPolicy otherPolicy)) State.index = some 0x403 := by decide
/-- F-22, F-23. -/
theorem test_ld_mem_vx_faults :
    ran 0xF055 (withI 0x04F) halt = at200 (.outOfBoundsAccess .fontWrite) 0xF055 (some 0x04F) ∧
    ran 0xF155 (withI 0xFFF) halt = at200 (.outOfBoundsAccess .write) 0xF155 (some 0x1000) := by decide
/-- F-24, and under X_PLUS_1. -/
theorem test_ld_vx_mem :
    ran 0xF265 (withI 0x400 ((base.setV 3 9).storeBytes 0x400 [1, 2, 3, 4]))
      (fun t => ([t.getV 0, t.getV 1, t.getV 2, t.getV 3], t.index)) = some ([1, 2, 3, 9], 0x400) ∧
    ran 0xF265 (withI 0x400 (withPolicy otherPolicy)) State.index = some 0x403 := by decide
/-- F-25, F-26. -/
theorem test_ld_vx_mem_bounds :
    ran 0xF065 base (State.getV · 0) = some 0xF0 ∧
    ran 0xF165 (withI 0xFFF) halt = at200 (.outOfBoundsAccess .read) 0xF165 (some 0x1000) := by decide

/-! ### Other sizes: the parameters of R7 in the rules that name them -/

/-- R38, R45: PC = PROG_BASE, STACK_DEPTH slots, and the glyph table at FONT_BASE. -/
theorem test_sizes_reset :
    small.pc = 0x100 ∧ small.stack = [0, 0] ∧ small.loadBytes 0x4F 3 = [0x00, 0xF0, 0x90] ∧
    small.loadBytes 0x9F 2 = [0x80, 0x00] := by decide
/-- R27, R58: PROG_BASE and MEM_SIZE bound the fetch. -/
theorem test_sizes_fetch :
    [0xFE, 0x100, 0x3FE, 0x400].map (fetchRefused otherSizes .default) = [true, false, false, true] := by
  decide
/-- R29: STACK_DEPTH bounds CALL. -/
theorem test_sizes_stack :
    ran 0x2300 { small with sp := 1 } (fun t => (t.stack[1]?, t.sp)) = some (some 0x102, 2) ∧
    ran 0x2300 { small with sp := 2 } halt =
      some (some ⟨.stackOverflow, 0x100, some 0x2300, none⟩, 0x100) := by decide
/-- R40, R41, R110: MEM_SIZE, the glyph table at FONT_BASE, and GLYPH_BYTES. -/
theorem test_sizes_memory :
    ran 0xF165 (withI 0x3FF small) halt =
      some (some ⟨.outOfBoundsAccess .read, 0x100, some 0xF165, some 0x400⟩, 0x100) ∧
    ran 0xF155 (withI 0x3FF small) halt =
      some (some ⟨.outOfBoundsAccess .write, 0x100, some 0xF155, some 0x400⟩, 0x100) ∧
    ran 0xF155 (withI 0x04F small) halt =
      some (some ⟨.outOfBoundsAccess .fontWrite, 0x100, some 0xF155, some 0x50⟩, 0x100) ∧
    ran 0xF229 (small.setV 2 15) State.index = some 0xAA := by decide
/-- R100: coordinates wrap at FB_W and FB_H, and two 1-bits of one row that meet in a pixel toggle it
twice, the second time with a collision. -/
theorem test_sizes_draw :
    ran 0xD012 (withI 0x300 (((small.setV 0 5).setV 1 2).storeBytes 0x300 [0x80, 0x88]))
      (fun t => (t.pixel 1 2, t.pixel 1 0, t.fb, t.getV VF)) = some (true, false, [(1, 2)], 1) := by decide

/-! ### Reset and memory -/

/-- L1-9: the glyph table after Reset, and 0 above it. -/
theorem test_reset_font :
    State.reset.loadBytes 0 5 = [0xF0, 0x90, 0x90, 0x90, 0xF0] ∧
    State.reset.loadBytes 0x4B 6 = [0xF0, 0x80, 0xF0, 0x80, 0x80, 0x00] := by decide
/-- R38. -/
theorem test_reset_registers :
    State.reset.pc = 0x200 ∧ State.reset.sp = 0 ∧ State.reset.index = 0 ∧ State.reset.fault = none := by
  decide
/-- Equal memories are equal data: writing a byte's reset value removes its entry. -/
theorem test_memory_canonical :
    ((base.storeByte 0x300 7).storeByte 0x300 0).mem = [] ∧
    ((base.storeByte 0x301 7).storeByte 0x300 7).mem = ((base.storeByte 0x300 7).storeByte 0x301 7).mem := by
  decide

/-- From the reset state itself, whose inputs are free, a placed word of each family is what the next step
runs. -/
theorem test_first_step_runs_the_placed_word :
    ∀ op ∈ [0x00E0, 0x00EE, 0x0123, 0x1234, 0x2300, 0x3342, 0x5120, 0x6005, 0x7103, 0x8124, 0x9120, 0xA2F0,
      0xB300, 0xC30F, 0xD015, 0xE59E, 0xF207, 0xF30A, 0xF333, 0xF255, 0xF265],
      (State.reset.withFetchWord 16 op).fetch = some (BitVec.ofNat 16 op) ∧
      after (fun _ => ()) (step (State.reset.withFetchWord 16 op)) = some () := by decide
/-- withFetchWord moves a PC no fetch can use to PROG_BASE, and clears the halt record. -/
theorem test_withFetchWord_elsewhere :
    ((withPc 0x1001).withFetchWord 16 0x6005).fetch = some 0x6005 := by decide

/-! ### Witnesses: states and operands that meet the hypotheses of each obligation, clause by clause, at
the boundary values of their ranges. An obligation without hypotheses has none here. -/

theorem witness_DecodeOfEncodeIsTheInstruction :
    (Instr.drw 0xF 0xE 0xF).wellFormed = true ∧ (Instr.sys 0xFFF).wellFormed = true := by decide
theorem witness_EncodeOfDecodeIsTheWord :
    decode .default 0xDFEF = .ok (.drw 0xF 0xE 0xF) ∧ decode otherPolicy 0x5121 = .ok (.seReg 1 2) :=
  ⟨rfl, rfl⟩
theorem witness_StepRunsTheDecodedInstruction :
    ∃ s : State, s.fault = none ∧ fetchRefused s.sizes s.policy s.pc.toNat = false ∧
      decode s.policy (wordOfBytes (s.byteAt s.pc.toNat) (s.byteAt (s.pc.toNat + 1))) =
        .ok (.ldImm 0 5) := ⟨base.withFetchWord 16 0x6005, by decide, by decide, rfl⟩
/-- Each disjunct of the refusal, and the first and last address that is not refused. -/
theorem witness_FetchIsRefusedOrBigEndian :
    base.policy.fetchCheck = .strict ∧
    (0x201 % 2 = 1 ∧ 0x1FE < base.sizes.progBase ∧ base.sizes.memSize < 0xFFF + 2) ∧
    ∀ pc0 ∈ [0x200, 0xFFE], ¬ ((base.policy.fetchCheck = .strict ∧
      (pc0 % 2 = 1 ∨ pc0 < base.sizes.progBase)) ∨ base.sizes.memSize < pc0 + 2) := by
  decide
theorem witness_UnknownOpcodeHaltsTheCore :
    ∃ s : State, s.fault = none ∧ s.fetch = some 0x8008 ∧
      decode s.policy 0x8008 = .error (.unknownOpcode 0x8008) :=
  ⟨base.withFetchWord 16 0x8008, by decide, by decide, rfl⟩
theorem witness_HaltedCoreTakesNoStep :
    ∃ (s t : State) (r : FaultRecord), s.fault = some r ∧ s.load (some []) = .ok t :=
  ⟨{ base with fault := some ⟨.unknownOpcode, 0x200, some 0x8008, none⟩ }, _, _, rfl, rfl⟩
theorem witness_FaultsArePrecise :
    ∃ (s t : State) (r : FaultRecord), s.fault = none ∧ coreStep s = .next t ∧ t.fault = some r :=
  ⟨base.withFetchWord 16 0x00EE, _, ⟨.stackUnderflow, 0x200, some 0x00EE, none⟩, by decide, rfl,
    by decide⟩
theorem witness_StallChangesNothing :
    ∃ s t : State, coreStep s = .next t ∧ t.result = some .stall :=
  ⟨base.withFetchWord 16 0xF30A, _, rfl, by decide⟩
theorem witness_FaultsAreRaisedOnlyByTheirInstructions :
    ∃ (s t : State) (r : FaultRecord), s.fault = none ∧ exec (.skp 5) s = .next t ∧ t.fault = some r :=
  ⟨base.setV 5 0x10, _, ⟨.outOfBoundsAccess .keyIndex, 0x1FE, some 0xE59E, some 0x10⟩, rfl, rfl,
    by decide⟩
/-- A record with an info and one without. -/
theorem witness_InfoIsRecordedWhereTheKindHasOne :
    (∃ (s t : State) (r : FaultRecord), s.fault = none ∧ coreStep s = .next t ∧ t.fault = some r ∧
      r.info = none) ∧
    ∃ (s t : State) (r : FaultRecord), s.fault = none ∧ coreStep s = .next t ∧ t.fault = some r ∧
      r.info = some 0x201 :=
  ⟨⟨base.withFetchWord 16 0x00EE, _, ⟨.stackUnderflow, 0x200, some 0x00EE, none⟩, by decide, rfl,
    by decide, rfl⟩, withPc 0x201, _, ⟨.outOfBoundsAccess .fetch, 0x201, none, some 0x201⟩, by decide, rfl,
    by decide, rfl⟩
/-- A redraw of true and one of false. -/
theorem witness_RedrawIsTrueExactlyForClearAndDraw :
    (∃ t, exec .cls base = .next t ∧ t.result.bind StepResult.redraw = some true) ∧
    ∃ t, exec (.sys 0) base = .next t ∧ t.result.bind StepResult.redraw = some false :=
  ⟨⟨_, rfl, rfl⟩, _, rfl, rfl⟩
theorem witness_StepKeepsPolicyAndDrawsInputs : ∃ t, step base = .next t := ⟨_, rfl⟩
/-- A step that stores, from a state whose memory lists something. -/
theorem witness_StepKeepsMemoryCanonical :
    ∃ s t : State, s.memWf ∧ step s = .next t ∧ t.mem ≠ s.mem :=
  ⟨(withI 0x300 (base.setV 0 1)).storeBytes 0x200 [0xF0, 0x55], _,
    State.memWf_storeBytes (State.memWf_hostReset base) (by decide), rfl, by decide⟩
theorem witness_StepKeepsTheGlyphTable :
    base.policy.fontWrite = .fault ∧ base.glyphsIntact ∧ ∃ t, step base = .next t :=
  ⟨rfl, by unfold State.glyphsIntact; decide, _, rfl⟩
/-- A call into the last slot. -/
theorem witness_StepKeepsTheStackInRange :
    ∃ s t : State, s.stackWf ∧ step s = .next t ∧ s.sp = 15 ∧ t.sp = 16 :=
  ⟨{ base with sp := 15 }.withFetchWord 16 0x2300, _, ⟨rfl, by decide⟩, rfl, rfl, by decide⟩
/-- A draw over the edge of a framebuffer that lists something. -/
theorem witness_StepKeepsFramebufferCanonical :
    ∃ s t : State, 0 < s.sizes.fbW ∧ 0 < s.sizes.fbH ∧ s.fbWf ∧ step s = .next t ∧
      s.fb = [(1, 2)] ∧ t.fb = [(0, 0), (3, 0), (1, 2)] :=
  ⟨{ small with fb := [(1, 2)] } |>.setV 0 3 |> withI 0x300 |>.storeByte 0x300 0xC0
      |>.withFetchWord 16 0xD011, _, by decide, by decide, by decide, rfl, rfl, by decide⟩
/-- Sizes for which the reset PC is the whole of PROG_BASE. -/
theorem witness_ResetGivesTheResetValues :
    (Sizes.default).progBase < 65536 ∧ 15 < (Sizes.default).stackDepth ∧
    79 < (Policy.default).fontTable.length := by decide
theorem witness_LoadCopiesTheProgramOrFails :
    base.sizes.progBase + (List.replicate 3584 (0 : Byte)).length ≤ base.sizes.memSize ∧
    base.sizes.memSize < base.sizes.progBase + (List.replicate 3585 (0 : Byte)).length := by
  rw [List.length_replicate, List.length_replicate]; decide

/-! Families 0, 1, 2 and B. -/

theorem witness_RetPopsOrUnderflows :
    ({ base with sp := 1 }.stackWf ∧ { base with sp := 1 }.sp ≠ 0) ∧
    ({ base with sp := 16 }.stackWf ∧ { base with sp := 16 }.sp ≠ 0) ∧ base.sp = 0 := by
  unfold State.stackWf; decide
theorem witness_CallPushesOrOverflows :
    (base.stackWf ∧ base.sp < base.sizes.stackDepth) ∧
    ({ base with sp := 15 }.stackWf ∧ { base with sp := 15 }.sp < base.sizes.stackDepth) ∧
    { base with sp := 16 }.sp = base.sizes.stackDepth := by
  unfold State.stackWf; decide
theorem witness_SysIsANoOp : (0x0E1 : Addr) ≠ 0x0E0 ∧ (0x0E1 : Addr) ≠ 0x0EE := by decide
/-- A call into a return: the run between them is empty. -/
theorem witness_CallThenReturnResumesAfterTheCall :
    ∃ s t w : State, s.stackWf ∧ s.sp < s.sizes.stackDepth ∧ s.fetch = some (encode (.call 0x300)) ∧
      step s = .next t ∧ StepsAbove s.sp t t ∧ t.sp = s.sp + 1 ∧ t.fetch = some (encode .ret) ∧
      step t = .next w :=
  ⟨{ base with sp := 15 }.storeBytes 0x200 [0x23, 0x00] |>.storeBytes 0x300 [0x00, 0xEE], _, _,
    ⟨rfl, by decide⟩, by decide, by decide, rfl, .refl _ (by decide), by decide, by decide, rfl⟩
theorem witness_SlotsInUseAreKept :
    ∃ s t : State, exec (.call 0x300) s = .next t ∧ 0 < s.sp ∧ 0 < t.sp :=
  ⟨{ base with sp := 1 }, _, rfl, by decide, by decide⟩

/-! The skips. -/

theorem witness_ComparisonsSkip :
    ((0 : Nibble) = 0 ∧ otherPolicy.strictLowNibble = .ignore ∧ (1 : Nibble) ≠ 0 ∧
      Policy.default.strictLowNibble = .fault) ∧
    base.getV 3 = 0 ∧ base.getV 3 ≠ 1 := by decide
theorem witness_KeyTestsSkipOrFault :
    ((base.setV 5 15).getV 5).toNat ≤ 15 ∧ 15 < ((base.setV 5 16).getV 5).toNat ∧
    base.policy.keyIndexRange = .fault ∧ (withPolicy otherPolicy).policy.keyIndexRange = .mask := by decide
/-- A skip that is taken, and one that is not. -/
theorem witness_SkipAdvancesPcByFourOrTwo :
    (∃ s t : State, s.fault = none ∧ s.fetch = some 0x3000 ∧ decode s.policy 0x3000 = .ok (.seImm 0 0) ∧
      isSkip (.seImm 0 0) ∧ coreStep s = .next t ∧ t.fault = none ∧ skipTaken (.seImm 0 0) s) ∧
    ∃ s t : State, s.fault = none ∧ s.fetch = some 0xE59E ∧ decode s.policy 0xE59E = .ok (.skp 5) ∧
      isSkip (.skp 5) ∧ coreStep s = .next t ∧ t.fault = none ∧ ¬ skipTaken (.skp 5) s :=
  ⟨⟨base.withFetchWord 16 0x3000, _, by decide, by decide, rfl, trivial, rfl, by decide,
    by unfold skipTaken; decide⟩, base.withFetchWord 16 0xE59E, _, by decide, by decide, rfl, trivial, rfl,
    by decide, by unfold skipTaken; decide⟩

/-! Families 6, 7 and 8. -/

/-- The policy clause with VF as an operand, and the register clause under the default. -/
theorem witness_MovesAndLogicWriteNoFlag :
    (withPolicy otherPolicy).policy.vfAluOperand = .flagLast ∧
    (base.policy.vfAluOperand = .fault ∧ (0xE : Reg) ≠ VF ∧ (0 : Reg) ≠ VF) := by decide
theorem witness_AddSetsCarry :
    (withPolicy otherPolicy).policy.vfAluOperand = .flagLast ∧
    (base.policy.vfAluOperand = .fault ∧ (1 : Reg) ≠ VF ∧ (2 : Reg) ≠ VF) := by decide
theorem witness_SubtractionsSetNotBorrow :
    (withPolicy otherPolicy).policy.vfAluOperand = .flagLast ∧
    (base.policy.vfAluOperand = .fault ∧ (1 : Reg) ≠ VF ∧ (1 : Reg) ≠ VF) := by decide
/-- Under VX, Y may be VF. -/
theorem witness_ShiftsSetTheBitShiftedOut :
    (withPolicy otherPolicy).policy.vfAluOperand = .flagLast ∧
    ((1 : Reg) ≠ VF ∧ (base.policy.shiftSource = .vy → VF ≠ VF)) := by decide
theorem witness_VfOperandFaultsInFamilyEight :
    base.policy.vfAluOperand = .fault ∧ (VF = VF ∧ (0 : Reg) ≠ VF) ∧
    { Policy.default with shiftSource := .vy }.vfAluOperand = .fault ∧
    { Policy.default with shiftSource := .vy }.shiftSource = .vy := by decide

/-! Families A, C and D. -/

theorem witness_RndIsAnyMaskedByte : (0x70 : Byte) &&& 0xF0 = 0x70 := by decide
/-- The refused read, the last one in range, the empty sprite out of range; the least framebuffer; one
1-bit on a pixel and none; a framebuffer of four columns, where two 1-bits of a row are on one pixel; a collision and none. -/
theorem witness_DrawTogglesOncePerSpriteBit :
    ((2 : Nibble) ≠ 0 ∧ base.sizes.memSize < (withI 0xFFF).base + (2 : Nibble).toNat) ∧
    (withI 0xFFF).base + (1 : Nibble).toNat ≤ base.sizes.memSize ∧ (0 : Nibble) = 0 ∧
    (0 < base.sizes.fbW ∧ 0 < base.sizes.fbH ∧ 0 < { otherSizes with fbW := 1, fbH := 1 }.fbW ∧
      0 < { otherSizes with fbW := 1, fbH := 1 }.fbH) ∧
    (spriteCount 0 1 1 base 0 0 = 1 ∧ spriteCount 0 1 1 base 4 0 = 0 ∧ base.pixel 0 0 = false) ∧
    spriteCount 0 1 1 (withI 0x300 (small.storeByte 0x300 0x88)) 0 0 = 2 ∧
    (spriteCovers 0 1 1 { base with fb := [(0, 0)] } 0 0 ∧
      { base with fb := [(0, 0)] }.pixel 0 0 = true) :=
  ⟨by decide, by decide, rfl, by decide, by decide, by decide,
    ⟨0, by decide, 0, by decide, by decide, by decide, by decide⟩, by decide⟩
/-- The least framebuffer for the longest sprite, a covered pixel that is set, and none that is. -/
theorem witness_DrawInvertsCoveredPixels :
    (8 ≤ base.sizes.fbW ∧ (15 : Nibble).toNat ≤ base.sizes.fbH ∧
      base.base + (15 : Nibble).toNat ≤ base.sizes.memSize) ∧
    (8 ≤ { otherSizes with fbW := 8, fbH := 15 }.fbW ∧
      (15 : Nibble).toNat ≤ { otherSizes with fbW := 8, fbH := 15 }.fbH) ∧
    (spriteCovers 0 1 1 { base with fb := [(0, 0)] } 0 0 ∧
      { base with fb := [(0, 0)] }.pixel 0 0 = true) ∧
    ∀ px py, base.pixel px py = false :=
  ⟨by decide, by decide,
    ⟨⟨0, by decide, 0, by decide, by decide, by decide, by decide⟩, by decide⟩,
    fun px py => pixelAt_clearFB px py⟩
theorem witness_DrawingTwiceRestoresTheFramebuffer :
    ∃ s t u : State, (0 : Reg) ≠ VF ∧ (1 : Reg) ≠ VF ∧
      s.base + (5 : Nibble).toNat ≤ s.sizes.memSize ∧
      exec (.drw 0 1 5) s = .next t ∧ exec (.drw 0 1 5) t = .next u ∧
      (0 < s.sizes.fbW ∧ 0 < s.sizes.fbH ∧ s.fbWf) ∧ s.blank ∧
      (8 ≤ s.sizes.fbW ∧ (5 : Nibble).toNat ≤ s.sizes.fbH) ∧ s.byteAt (s.base + 0) ≠ 0 :=
  ⟨base, _, _, by decide, by decide, by decide, rfl, rfl, ⟨by decide, by decide, by decide⟩,
    fun x y => pixelAt_clearFB x y, by decide, by decide⟩

/-! Families E and F. -/

/-- No key down, two keys down, and one of them as the free choice under ANY. -/
theorem witness_KeyWaitStallsOrStoresAKey :
    (∀ k < 16, ¬ base.inputs.keys.getLsbD k = true) ∧
    ((withKeys 0x8001).inputs.keys.getLsbD 0 = true ∧ (withKeys 0x8001).inputs.keys.getLsbD 15 = true) ∧
    base.policy.keywaitPick = .lowest ∧ (withPolicy otherPolicy).policy.keywaitPick = .any := by decide
theorem witness_GlyphAddressOrFault :
    ((with12 0 15).getV 2).toNat ≤ 15 ∧ 15 < ((with12 0 16).getV 2).toNat ∧
    base.policy.fontDigitRange = .fault ∧ (withPolicy otherPolicy).policy.fontDigitRange = .mask ∧
    base.sizes.fontBase + base.sizes.glyphBytes * 15 < 65536 := by decide
/-- The runs of n addresses from 80 on and up to MEM_SIZE may be written. -/
theorem writable_default (b n : Nat) (h : 80 ≤ b) (hn : b + n ≤ 4096) (s : State)
    (hz : s.sizes = .default) (hp : s.policy = .default) : ∀ k < n, s.writable (b + k) := by
  intro k hk
  unfold State.writable
  rw [hz, hp]
  have h1 : Sizes.default.memSize = 4096 := rfl
  have h2 : Sizes.default.fontBase + Policy.default.fontSize = 80 := by decide
  rw [h1, h2]
  omega
/-- The last glyph byte and the first address at MEM_SIZE may not be written. -/
theorem not_writable_default :
    ¬ base.writable 79 ∧ ¬ base.writable 4096 ∧ base.writable 80 ∧ base.writable 4095 := by
  unfold State.writable; decide
/-- The lowest and highest place for three digits, and a first refused address at k = 0 and at k = 2. -/
theorem witness_BcdDigitsAreStored :
    (∀ k < 3, (withI 80).writable ((withI 80).base + k)) ∧
    (∀ k < 3, (withI 4093).writable ((withI 4093).base + k)) ∧
    ¬ (withI 79).writable ((withI 79).base + 0) ∧
    (∀ j < 2, (withI 4094).writable ((withI 4094).base + j)) ∧
    ¬ (withI 4094).writable ((withI 4094).base + 2) :=
  ⟨writable_default 80 3 (by decide) (by decide) _ rfl rfl,
    writable_default 4093 3 (by decide) (by decide) _ rfl rfl, not_writable_default.1,
    writable_default 4094 2 (by decide) (by decide) _ rfl rfl, not_writable_default.2.1⟩
/-- The lowest and highest place for sixteen registers, a first refused address at k = 0 and at k = 15, and
both values of LDST_INCREMENT_I. -/
theorem witness_RegistersAreDumped :
    (∀ k < (15 : Reg).val + 1, (withI 80).writable ((withI 80).base + k)) ∧
    (∀ k < (15 : Reg).val + 1, (withI 4080).writable ((withI 4080).base + k)) ∧
    ¬ (withI 79).writable ((withI 79).base + 0) ∧
    (∀ j < 15, (withI 4081).writable ((withI 4081).base + j)) ∧
    ¬ (withI 4081).writable ((withI 4081).base + 15) ∧
    base.policy.ldstIncrementI = .none ∧ (withPolicy otherPolicy).policy.ldstIncrementI = .xPlus1 :=
  ⟨writable_default 80 16 (by decide) (by decide) _ rfl rfl,
    writable_default 4080 16 (by decide) (by decide) _ rfl rfl, not_writable_default.1,
    writable_default 4081 15 (by decide) (by decide) _ rfl rfl, not_writable_default.2.1, rfl, rfl⟩
theorem witness_RegistersAreLoaded :
    base.policy.ldstIncrementI = .none ∧ (withPolicy otherPolicy).policy.ldstIncrementI = .xPlus1 ∧
    (withI 0).base + ((15 : Reg).val + 1) ≤ base.sizes.memSize ∧
    (withI 4080).base + ((15 : Reg).val + 1) ≤ base.sizes.memSize ∧
    base.sizes.memSize < (withI 4081).base + ((15 : Reg).val + 1) := by decide
/-- Both stores over the bytes at PC, from one byte below it and from PC on. -/
theorem witness_StoredBytesAreFetched :
    fetchRefused base.sizes base.policy base.pc.toNat = false ∧
    ∀ i ∈ [0x1FF, 0x200, 0x201],
      after State.fault (exec (.ldMemVx 1) (withI (BitVec.ofNat 16 i))) = some none ∧
      after State.fault (exec (.ldBVx 1) (withI (BitVec.ofNat 16 i))) = some none := by decide

/-! Whole-machine rules. -/

theorem witness_VRegistersHaveOnlyTheirReadersAndWriters :
    ∃ t u : State, exec (.addReg 1 2) base = .next t ∧ ¬ readsV base.policy (.addReg 1 2) 3 ∧
      exec (.addReg 1 2) (base.setV 3 7) = .next u :=
  ⟨_, _, rfl, by simp [readsV], rfl⟩
/-- An instruction that writes none of the elements, and one that faults. -/
theorem witness_EachElementHasOnlyItsWriters :
    base.fault = none ∧
    (∃ t, exec (.ldImm 0 5) base = .next t ∧ t.fault = none ∧ ¬ writesIndex base.policy (.ldImm 0 5) ∧
      ¬ writesPc (.ldImm 0 5)) ∧
    ∃ t, exec .ret base = .next t ∧ t.fault ≠ none :=
  ⟨rfl, ⟨_, rfl, rfl, id, id⟩, _, rfl, by decide⟩
theorem witness_SoundTimerIsNeverRead :
    ∃ t u : State, exec (.ldStVx 2) base = .next t ∧ exec (.ldStVx 2) { base with st := 9 } = .next u :=
  ⟨_, _, rfl, rfl⟩
theorem witness_ExternalInputsHaveOnlyTheirReaders :
    (∀ x, Instr.drw 0 1 5 ≠ .skp x) ∧ (∀ x, Instr.drw 0 1 5 ≠ .sknp x) ∧
    (∀ x, Instr.drw 0 1 5 ≠ .ldVxK x) ∧ (∀ x nn, Instr.drw 0 1 5 ≠ .rnd x nn) ∧
    ∃ t u : State, exec (.drw 0 1 5) base = .next t ∧
      exec (.drw 0 1 5) { base with inputs := ⟨0xFFFF, 0xFF, 0, 0⟩ } = .next u :=
  ⟨nofun, nofun, nofun, nofun, _, _, rfl, rfl⟩
theorem witness_EndedRunKeepsJumpingToItself : ∃ s : State, s.runEnded :=
  ⟨base.withFetchWord 16 0x1200, by decide, 0x200, by decide, by decide⟩

/-! Sizes to which the spec gives no meaning. -/

theorem witness_DrawOnAFramebufferWithoutPixels :
    ({ Sizes.default with fbW := 0 }.fbW = 0 ∧ { Sizes.default with fbH := 0 }.fbH = 0) ∧
    (0 : Nibble) = 0 ∧
    (withI 0xFFF).base + (1 : Nibble).toNat ≤ { Sizes.default with fbW := 0 }.memSize := by decide

end Sys2Proof.Tests
end

section
/-! The step keeps the parameters and draws the next inputs (R7, R8, R9; log 3, log 4). -/

namespace Sys2Proof.Machine

/-- A Step without the host's ticks and draws leaves the environment alone: the fetch and decode faults
write only the halt record, result and pc, and the instructions are `exec_env`. -/
theorem coreStep_env {s t : State} (h : coreStep s = .next t) :
    t.sizes = s.sizes ∧ t.policy = s.policy ∧ t.inputs = s.inputs ∧ t.draws = s.draws := by
  cases coreStep_end h with
  | fetchFault _ ht => simp [ht]
  | unknown _ _ _ ht => simp [ht]
  | exec _ _ _ _ hexec => simpa using exec_env hexec

/-- Settles O15: the ticks before the core step and the draw after it keep the parameters, and the draw
reads a counter that the core step left as it was. -/
theorem stepKeepsPolicyAndDrawsInputs : Obligations.StepKeepsPolicyAndDrawsInputs := by
  intro s u h
  obtain ⟨-, t, hcore, rfl⟩ := step_next h
  obtain ⟨hsizes, hpolicy, -, hdraws⟩ := coreStep_env hcore
  simp [hsizes, hpolicy, hdraws]

end Sys2Proof.Machine
end

section
/-! The invariants of the state (R28, R36, R38, R45): one rule for what every step keeps, and the call stack
and the framebuffer as its instances. -/

namespace Sys2Proof.Machine

/-! ### What every step keeps -/

/-- A predicate that the ticks, the fetch's advance, a fault's entry and the draw of the inputs keep, and
every instruction too, is kept by every step. -/
theorem step_keeps {P : State → Prop} (hticks : ∀ s, P s → P s.applyTicks)
    (hadvance : ∀ s, P s → P s.advance) (hfault : ∀ s r, P s → P (s.takeFault r))
    (hdraw : ∀ s, P s → P s.drawInputs) (hexec : ∀ i s t, P s → exec i s = .next t → P t)
    {s u : State} (hs : P s) (h : step s = .next u) : P u := by
  obtain ⟨-, t, hcore, rfl⟩ := step_next h
  refine hdraw t ?_
  cases coreStep_end hcore with
  | fetchFault _ ht => exact ht ▸ hfault _ _ (hticks s hs)
  | unknown _ _ _ ht => exact ht ▸ hfault _ _ (hadvance _ (hticks s hs))
  | exec _ i _ _ hi => exact hexec i _ t (hadvance _ (hticks s hs)) hi

/-! ### The call stack -/

/-- A push, a pop and everything else leave STACK_DEPTH slots and SP in 0..STACK_DEPTH. -/
theorem exec_keeps_stackWf {i : Instr} {s t : State} (hs : s.stackWf) (h : exec i s = .next t) :
    t.stackWf := by
  obtain ⟨hlen, hsp⟩ := hs
  obtain ⟨hsizes, -⟩ := exec_env h
  unfold State.stackWf
  rw [hsizes]
  obtain ⟨hstack, hle⟩ | ⟨hlt, hpush, a, hstack⟩ := exec_stack h
  · exact ⟨hstack ▸ hlen, hle.trans hsp⟩
  · exact ⟨by rw [hstack, List.length_set, hlen], by omega⟩

/-- Settles O18, as an invariant that only the instructions can touch. -/
theorem stepKeepsTheStackInRange : Obligations.StepKeepsTheStackInRange := fun _ _ hs h =>
  step_keeps (P := State.stackWf) (fun _ hs => hs) (fun _ hs => hs) (fun _ _ hs => hs) (fun _ hs => hs)
    (fun _ _ _ => exec_keeps_stackWf) hs h

/-- Settles O30: a push writes the slot at the old SP, which is above j, and no other instruction writes a
slot. -/
theorem slotsInUseAreKept : Obligations.SlotsInUseAreKept := by
  intro i s t j h hj _
  obtain ⟨hstack, -⟩ | ⟨-, -, a, hstack⟩ := exec_stack h
  · rw [hstack]
  · rw [hstack, List.getElem?_set_ne hj.ne']

/-! ### The framebuffer -/

/-- CLS leaves the empty framebuffer, and a sprite's pixels are wrapped into FB_W x FB_H (R100). -/
theorem exec_keeps_fbWf {i : Instr} {s t : State} (hw : 0 < s.sizes.fbW) (hh : 0 < s.sizes.fbH)
    (hs : s.fbWf) (h : exec i s = .next t) : t.fbWf := by
  obtain ⟨hsizes, -⟩ := exec_env h
  unfold State.fbWf
  rw [hsizes]
  obtain hfb | hfb | ⟨x, y, n, hfb⟩ := exec_fb h
  · exact hfb ▸ hs
  · exact hfb ▸ Framebuffer.wf_clearFB _
  · exact hfb ▸ Framebuffer.wf_drawPixels hs (mem_spritePixels_lt hw hh _ _ _)

/-- Settles O19, as an invariant together with the sizes, which say that there are pixels. -/
theorem stepKeepsFramebufferCanonical : Obligations.StepKeepsFramebufferCanonical := by
  intro s t hw hh hs h
  refine step_keeps (P := fun u => u.fbWf ∧ u.sizes = s.sizes) (fun _ hu => hu) (fun _ hu => hu)
    (fun _ _ hu => hu) (fun _ hu => hu) (fun i u u' ⟨hfb, hsizes⟩ h => ?_) ⟨hs, rfl⟩ h
  exact ⟨exec_keeps_fbWf (hsizes ▸ hw) (hsizes ▸ hh) hfb h, (exec_env h).1.trans hsizes⟩

/-! ### Reset -/

/-- An unlisted byte of the glyph range reads as its byte of FONT_TABLE (R45). -/
theorem resetByte_glyph {z : Sizes} {p : Policy} {a : Nat} (h : a < p.fontTable.length) :
    resetByte z p (z.fontBase + a) = p.fontTable[a] := by
  simp [resetByte, h]

/-- Settles O20: the reset memory and framebuffer are empty, and the stack has STACK_DEPTH slots with none
in use. -/
theorem resetMeetsTheInvariants : Obligations.ResetMeetsTheInvariants := fun z _ =>
  ⟨Memory.wf_nil _ _, fun _ => resetByte_glyph, ⟨List.length_replicate, Nat.zero_le _⟩,
    Framebuffer.wf_clearFB z⟩

end Sys2Proof.Machine
end

section
/-! What an instruction writes, said once: the elements it leaves to their writers (R21, R25, R26, R28, R31,
R36, R39), with the redraw flag of a completed instruction (R34) and the info of a fault (R114). -/

namespace Sys2Proof.Machine

/-- The states before and after an instruction's writes agree on every element that the instruction is no
writer of. The policy says whether FX55 and FX65 write I. -/
structure InstrFrame (p : Policy) (i : Instr) (s t : State) : Prop where
  regs  : sameRegsBut (writesV i) s t
  index : ¬ writesIndex p i → t.index = s.index
  pc    : ¬ writesPc i → t.pc = s.pc
  stack : (∀ nnn, i ≠ .call nnn) → t.stack = s.stack
  sp    : (∀ nnn, i ≠ .call nnn) → i ≠ .ret → t.sp = s.sp
  dt    : (∀ x, i ≠ .ldDtVx x) → t.dt = s.dt
  st    : (∀ x, i ≠ .ldStVx x) → t.st = s.st
  fb    : i ≠ .cls → (∀ x y n, i ≠ .drw x y n) → t.fb = s.fb
  mem   : (∀ x, i ≠ .ldBVx x) → (∀ x, i ≠ .ldMemVx x) → t.mem = s.mem
  fault : t.fault = s.fault

namespace InstrFrame

variable {p : Policy} {i : Instr} {s t u : State}

/-! ### One rule for each update -/

theorem refl (p : Policy) (i : Instr) (s : State) : InstrFrame p i s s where
  regs _ _ := rfl
  index _ := rfl
  pc _ := rfl
  stack _ := rfl
  sp _ _ := rfl
  dt _ := rfl
  st _ := rfl
  fb _ _ := rfl
  mem _ _ := rfl
  fault := rfl

theorem trans (hst : InstrFrame p i s t) (htu : InstrFrame p i t u) : InstrFrame p i s u where
  regs r hr := (htu.regs r hr).trans (hst.regs r hr)
  index h := (htu.index h).trans (hst.index h)
  pc h := (htu.pc h).trans (hst.pc h)
  stack h := (htu.stack h).trans (hst.stack h)
  sp h h' := (htu.sp h h').trans (hst.sp h h')
  dt h := (htu.dt h).trans (hst.dt h)
  st h := (htu.st h).trans (hst.st h)
  fb h h' := (htu.fb h h').trans (hst.fb h h')
  mem h h' := (htu.mem h h').trans (hst.mem h h')
  fault := htu.fault.trans hst.fault

theorem setV {x : Reg} (b : Byte) (hx : writesV i x) : InstrFrame p i s (s.setV x b) :=
  { refl p i s with regs := fun _ hr => s.getV_setV_ne b fun e => hr (e ▸ hx) }

theorem setResultFlag {x : Reg} (b f : Byte) (hx : writesV i x) (hvf : writesV i VF) :
    InstrFrame p i s (s.setResultFlag x b f) := (setV b hx).trans (setV f hvf)

theorem withV (v : Vector Byte 16) (hv : sameRegsBut (writesV i) s { s with v := v }) :
    InstrFrame p i s { s with v := v } :=
  { refl p i s with regs := hv }

theorem loadLowRegs {x : Reg} (a : Nat) (hx : ∀ r, r ≤ x → writesV i r) :
    InstrFrame p i s (s.loadLowRegs x a) :=
  withV _ fun r hr => by
    have hle : ¬ r ≤ x := fun hle => hr (hx r hle)
    exact (s.getV_loadLowRegs x r a).trans (if_neg hle)

theorem withIndex (w : Word) (hi : writesIndex p i) : InstrFrame p i s { s with index := w } :=
  { refl p i s with index := fun h => absurd hi h }

theorem bumpIndex (x : Reg) (hi : s.policy.ldstIncrementI = .xPlus1 → writesIndex p i) :
    InstrFrame p i s (s.bumpIndex x) := by
  unfold State.bumpIndex
  split
  · exact refl p i s
  · exact withIndex _ (hi ‹_›)

theorem withPc (w : Word) (hi : writesPc i) : InstrFrame p i s { s with pc := w } :=
  { refl p i s with pc := fun h => absurd hi h }

theorem skipIf (c : Bool) (hi : writesPc i) : InstrFrame p i s (s.skipIf c) := by
  cases c
  · exact refl p i s
  · exact withPc _ hi

theorem withFb (fb : Framebuffer) (hi : i = .cls ∨ ∃ x y n, i = .drw x y n) :
    InstrFrame p i s { s with fb := fb } :=
  { refl p i s with
    fb := fun hcls hdrw => by
      obtain h | ⟨x, y, n, h⟩ := hi
      · exact absurd h hcls
      · exact absurd h (hdrw x y n) }

theorem storeBytes (a : Nat) (bs : List Byte) (hi : (∃ x, i = .ldBVx x) ∨ ∃ x, i = .ldMemVx x) :
    InstrFrame p i s (s.storeBytes a bs) := by
  rw [State.storeBytes_eq]
  exact
    { refl p i s with
      mem := fun hbcd hdump => by
        obtain ⟨x, h⟩ | ⟨x, h⟩ := hi
        · exact absurd h (hbcd x)
        · exact absurd h (hdump x) }

theorem call (nnn : Addr) (stack : List Word) (sp : Nat) (pc : Word) :
    InstrFrame p (.call nnn) s { s with stack := stack, sp := sp, pc := pc } :=
  { refl p (.call nnn) s with
    pc := fun h => (h trivial).elim
    stack := fun h => absurd rfl (h nnn)
    sp := fun h => absurd rfl (h nnn) }

theorem ret (sp : Nat) (pc : Word) : InstrFrame p .ret s { s with sp := sp, pc := pc } :=
  { refl p .ret s with
    pc := fun h => (h trivial).elim
    sp := fun _ h => absurd rfl h }

theorem ldDtVx (x : Reg) (b : Byte) : InstrFrame p (.ldDtVx x) s { s with dt := b } :=
  { refl p (.ldDtVx x) s with dt := fun h => absurd rfl (h x) }

theorem ldStVx (x : Reg) (b : Byte) : InstrFrame p (.ldStVx x) s { s with st := b } :=
  { refl p (.ldStVx x) s with st := fun h => absurd rfl (h x) }

end InstrFrame

/-! ### How an instruction ends -/

/-- The three ends of an instruction, as in `ExecEnd`, and what each one writes. -/
inductive ExecEffect (i : Instr) (s t : State) : Prop where
  | fault (kind : FaultKind) (info : Option Nat)
      (hinfo : info = none ↔ kind = .stackOverflow ∨ kind = .stackUnderflow ∨ kind = .unknownOpcode)
      (ht : t = s.takeFault ⟨kind, s.pc - 2, some (encode i), info⟩)
  | stall (x : Reg) (hi : i = .ldVxK x) (ht : t = s.stalled)
  | done (redraw : Bool) (u : State) (hredraw : redraw = true ↔ i = .cls ∨ ∃ x y n, i = .drw x y n)
      (frame : InstrFrame s.policy i s u) (ht : t = u.completed redraw)

namespace ExecEffect

variable {i : Instr} {s t u : State}

theorem finish {redraw : Bool} (frame : InstrFrame s.policy i s u)
    (h : Machine.finish redraw u = .next t)
    (hredraw : redraw = true ↔ i = .cls ∨ ∃ x y n, i = .drw x y n := by simp) :
    ExecEffect i s t := by
  cases h; exact .done redraw u hredraw frame rfl

theorem raise {kind : FaultKind} {info : Option Nat}
    (h : Machine.raise (encode i) kind info s = .next t)
    (hinfo : info = none ↔
      kind = .stackOverflow ∨ kind = .stackUnderflow ∨ kind = .unknownOpcode := by simp) :
    ExecEffect i s t := by
  cases h; exact .fault kind info hinfo rfl

theorem guard {readsY : Bool} {x y : Reg} (frame : InstrFrame s.policy i s u)
    (h : aluGuard (encode i) readsY x y u s = .next t)
    (hredraw : false = true ↔ i = .cls ∨ ∃ x y n, i = .drw x y n := by simp) :
    ExecEffect i s t := by
  unfold aluGuard at h
  split at h
  · exact raise h
  · exact finish frame h hredraw

end ExecEffect

open InstrFrame in
/-- Every instruction ends in one of the three ways and writes only what it is a writer of. -/
theorem exec_effect {i : Instr} {s t : State} (h : exec i s = .next t) : ExecEffect i s t := by
  cases i with
  | cls => exact .finish (withFb _ (.inl rfl)) h
  | ret =>
    simp only [exec, execRet] at h
    split at h
    · exact .raise h
    · rename_i hpop
      obtain ⟨-, -, rfl⟩ := s.pop_some hpop
      exact .finish (ret _ _) h
  | sys nnn => exact .finish (refl _ _ _) h
  | jp nnn => exact .finish (withPc _ trivial) h
  | call nnn =>
    simp only [exec, execCall] at h
    split at h
    · exact .raise h
    · rename_i hpush
      obtain ⟨-, rfl⟩ := s.push_some hpush
      exact .finish (call nnn _ _ _) h
  | seImm x nn => exact .finish (skipIf _ trivial) h
  | sneImm x nn => exact .finish (skipIf _ trivial) h
  | seReg x y => exact .finish (skipIf _ trivial) h
  | sneReg x y => exact .finish (skipIf _ trivial) h
  | ldImm x nn => exact .finish (setV _ rfl) h
  | addImm x nn => exact .finish (setV _ rfl) h
  | ldReg x y => exact .guard (setV _ rfl) h
  | orReg x y => exact .guard (setV _ rfl) h
  | andReg x y => exact .guard (setV _ rfl) h
  | xorReg x y => exact .guard (setV _ rfl) h
  | addReg x y => exact .guard (setResultFlag _ _ (.inl rfl) (.inr rfl)) h
  | sub x y => exact .guard (setResultFlag _ _ (.inl rfl) (.inr rfl)) h
  | shr x y => exact .guard (setResultFlag _ _ (.inl rfl) (.inr rfl)) h
  | subn x y => exact .guard (setResultFlag _ _ (.inl rfl) (.inr rfl)) h
  | shl x y => exact .guard (setResultFlag _ _ (.inl rfl) (.inr rfl)) h
  | ldI nnn => exact .finish (withIndex _ trivial) h
  | jpV0 nnn => exact .finish (withPc _ trivial) h
  | rnd x nn => exact .finish (setV _ rfl) h
  | drw x y n =>
    simp only [exec, execDrw] at h
    split at h
    · exact .raise h
    · exact .finish ((withFb _ (.inr ⟨x, y, n, rfl⟩)).trans (setV _ rfl)) h
  | skp x =>
    simp only [exec, execSkp] at h
    split at h
    · exact .raise h
    · exact .finish (skipIf _ trivial) h
  | sknp x =>
    simp only [exec, execSknp] at h
    split at h
    · exact .raise h
    · exact .finish (skipIf _ trivial) h
  | ldVxDt x => exact .finish (setV _ rfl) h
  | ldVxK x =>
    cases h
    unfold State.awaitKey
    split
    · exact .stall x rfl rfl
    · exact .finish (setV _ rfl) rfl
  | ldDtVx x => exact .finish (ldDtVx x _) h
  | ldStVx x => exact .finish (ldStVx x _) h
  | addIVx x => exact .finish (withIndex _ trivial) h
  | ldFVx x =>
    simp only [exec, execLdFVx] at h
    split at h
    · exact .raise h
    · exact .finish (withIndex _ trivial) h
  | ldBVx x =>
    simp only [exec, execLdBVx] at h
    split at h
    · exact .raise h
    · exact .finish (storeBytes _ _ (.inl ⟨x, rfl⟩)) h
  | ldMemVx x =>
    simp only [exec, execLdMemVx] at h
    split at h
    · exact .raise h
    · exact .finish ((storeBytes _ _ (.inr ⟨x, rfl⟩)).trans
        (bumpIndex x fun hinc => by simpa [writesIndex] using hinc)) h
  | ldVxMem x =>
    simp only [exec, execLdVxMem] at h
    split at h
    · exact .raise h
    · exact .finish ((loadLowRegs _ fun _ hr => hr).trans (bumpIndex x id)) h

/-- A fault and a stall write no register. -/
theorem exec_regs {i : Instr} {s t : State} (h : exec i s = .next t) : sameRegsBut (writesV i) s t := by
  cases exec_effect h with
  | fault _ _ _ ht => exact fun _ _ => ht ▸ rfl
  | stall _ _ ht => exact fun _ _ => ht ▸ rfl
  | done _ _ _ frame ht => exact ht ▸ frame.regs

/-- A fault and a stall do not write ST. -/
theorem exec_st {i : Instr} {s t : State} (hi : ∀ x, i ≠ .ldStVx x) (h : exec i s = .next t) :
    t.st = s.st := by
  cases exec_effect h with
  | fault _ _ _ ht => rw [ht]; rfl
  | stall _ _ ht => rw [ht]; rfl
  | done _ _ _ frame ht => exact ht ▸ frame.st hi

/-! ### The obligations that read off one end -/

/-- Settles O13: the step's own two faults name their info, and an instruction's are in `ExecEffect`. -/
theorem infoIsRecordedWhereTheKindHasOne : Obligations.InfoIsRecordedWhereTheKindHasOne := by
  intro s t r hs h hr
  cases coreStep_end h with
  | fetchFault _ ht => subst ht; cases hr; simp
  | unknown _ _ _ ht => subst ht; cases hr; simp
  | exec _ i _ _ hexec =>
    cases exec_effect hexec with
    | fault kind info hinfo ht => subst ht; cases hr; exact hinfo
    | stall _ _ ht => subst ht; simp [hs] at hr
    | done _ u _ frame ht => subst ht; simp [frame.fault, hs] at hr

/-- Settles O14: a fault returns no flag, FX0A stalls with a false one, and the completions are in
`ExecEffect`. -/
theorem redrawIsTrueExactlyForClearAndDraw : Obligations.RedrawIsTrueExactlyForClearAndDraw := by
  intro i s t b h hb
  cases exec_effect h with
  | fault _ _ _ ht => subst ht; cases hb
  | stall x hi ht => subst hi ht; cases hb; simp
  | done redraw u hredraw _ ht =>
    subst ht; cases hb; exact hredraw

/-- Settles O53: a fault and a stall write PC back and nothing else of these, and a completed instruction
writes what `InstrFrame` leaves to it. -/
theorem eachElementHasOnlyItsWriters : Obligations.EachElementHasOnlyItsWriters := by
  intro i s t hs h
  obtain ⟨hsizes, hpolicy, -⟩ := exec_env h
  have bytes (hmem : t.mem = s.mem) : sameBytes s t := State.byteAt_congr hmem hsizes hpolicy
  cases exec_effect h with
  | fault _ _ _ ht =>
    subst ht
    exact ⟨fun _ => rfl, fun _ => nofun, fun _ => rfl, fun _ => rfl, fun _ _ => rfl, fun _ => rfl,
      fun _ => rfl, fun _ _ => rfl, fun _ _ => bytes rfl⟩
  | stall x hi ht =>
    subst hi ht
    exact ⟨fun _ => rfl, fun hpc => (hpc trivial).elim, fun hf => (hf hs).elim, fun _ => rfl,
      fun _ _ => rfl, fun _ => rfl, fun _ => rfl, fun _ _ => rfl, fun _ _ => bytes rfl⟩
  | done _ _ _ frame ht =>
    subst ht
    exact ⟨frame.index, fun hpc _ => frame.pc hpc, fun hf => absurd (frame.fault.trans hs) hf, frame.stack,
      frame.sp, frame.dt, frame.st, frame.fb, fun hbcd hdump => bytes (frame.mem hbcd hdump)⟩

end Sys2Proof.Machine
end

section
/-! What an instruction reads (R21, R31, R125, R126), as noninterference: two states that an observer cannot
tell apart, who sees all that the instruction reads, end where the observer cannot tell them apart. -/

namespace Sys2Proof.Machine

/-! ### What an observer sees -/

/-- An observer of a state sees all of it but the V registers outside `regs`, and but the sound timer, the
keys and the random byte where `st`, `keys` and `rnd8` say so. -/
structure Observer where
  regs : Reg → Prop
  st   : Prop
  keys : Prop
  rnd8 : Prop

/-- The observer sees what the instruction reads: its V registers (R21), the keys of EX9E, EXA1 and FX0A
(R125), and the random byte of CXNN (R126). ST is not among it (R31). -/
structure Observer.SeesReadsOf (o : Observer) (p : Policy) (i : Instr) : Prop where
  regs : ∀ r, readsV p i r → o.regs r
  keys : (∃ x, i = .skp x) ∨ (∃ x, i = .sknp x) ∨ (∃ x, i = .ldVxK x) → o.keys
  rnd8 : (∃ x nn, i = .rnd x nn) → o.rnd8

/-- The observer cannot tell the two states apart. -/
structure Alike (o : Observer) (s u : State) : Prop where
  frame : ∃ v st n, u = { s with v := v, st := st, inputs := n }
  regs  : ∀ r, o.regs r → u.getV r = s.getV r
  st    : o.st → u.st = s.st
  keys  : o.keys → u.inputs.keys = s.inputs.keys ∧ u.inputs.keyPick = s.inputs.keyPick
  rnd8  : o.rnd8 → u.inputs.rnd8 = s.inputs.rnd8

/-! ### Operands -/

section Operands

variable {s u : State} {x : Reg}

theorem State.keyIndex_congr (hx : u.getV x = s.getV x) (hp : u.policy = s.policy) :
    u.keyIndex x = s.keyIndex x := by
  unfold State.keyIndex; rw [hx, hp]

theorem State.fontDigit_congr (hx : u.getV x = s.getV x) (hp : u.policy = s.policy) :
    u.fontDigit x = s.fontDigit x := by
  unfold State.fontDigit; rw [hx, hp]

theorem State.isKeyDown_congr (hk : u.inputs.keys = s.inputs.keys) : u.isKeyDown = s.isKeyDown := by
  funext k; unfold State.isKeyDown; rw [hk]

theorem State.waitedKey_congr (hk : u.inputs.keys = s.inputs.keys)
    (hpick : u.inputs.keyPick = s.inputs.keyPick) (hp : u.policy = s.policy) :
    u.waitedKey = s.waitedKey := by
  unfold State.waitedKey State.lowestKey
  rw [State.isKeyDown_congr hk, hpick, hp]

theorem State.lowRegs_congr (h : ∀ r ≤ x, u.getV r = s.getV r) : u.lowRegs x = s.lowRegs x := by
  refine List.ext_getElem (by simp [State.lowRegs]) fun k hk _ => ?_
  have hkx : k ≤ x.val := by simpa [State.lowRegs] using hk
  simpa [State.lowRegs, State.getV] using h ⟨k, by omega⟩ (Fin.mk_le_of_le_val hkx)

/-- The shift operand is the one register that R94 and R96 name under the policy. -/
theorem State.shiftOperand_congr {y : Reg} (hp : u.policy = s.policy)
    (h : ∀ r, (if s.policy.shiftSource = .vy then r = y else r = x) → u.getV r = s.getV r) :
    u.shiftOperand x y = s.shiftOperand x y := by
  unfold State.shiftOperand
  rw [hp]
  cases hsource : s.policy.shiftSource
  · exact h x (by simp [hsource])
  · exact h y (by simp [hsource])

end Operands

namespace Alike

variable {o : Observer} {s u : State}

/-! ### What every observer sees -/

theorem index (h : Alike o s u) : u.index = s.index := by obtain ⟨_, _, _, rfl⟩ := h.frame; rfl
theorem pc (h : Alike o s u) : u.pc = s.pc := by obtain ⟨_, _, _, rfl⟩ := h.frame; rfl
theorem sp (h : Alike o s u) : u.sp = s.sp := by obtain ⟨_, _, _, rfl⟩ := h.frame; rfl
theorem dt (h : Alike o s u) : u.dt = s.dt := by obtain ⟨_, _, _, rfl⟩ := h.frame; rfl
theorem mem (h : Alike o s u) : u.mem = s.mem := by obtain ⟨_, _, _, rfl⟩ := h.frame; rfl
theorem fb (h : Alike o s u) : u.fb = s.fb := by obtain ⟨_, _, _, rfl⟩ := h.frame; rfl
theorem sizes (h : Alike o s u) : u.sizes = s.sizes := by obtain ⟨_, _, _, rfl⟩ := h.frame; rfl
theorem policy (h : Alike o s u) : u.policy = s.policy := by obtain ⟨_, _, _, rfl⟩ := h.frame; rfl

/-- What differs is what an observer may not see. -/
theorem eq_frame (h : Alike o s u) : u = { s with v := u.v, st := u.st, inputs := u.inputs } := by
  obtain ⟨_, _, _, rfl⟩ := h.frame; rfl

theorem base (h : Alike o s u) : u.base = s.base := congrArg BitVec.toNat h.index

theorem byteAt (h : Alike o s u) (a : Nat) : u.byteAt a = s.byteAt a :=
  State.byteAt_congr h.mem h.sizes h.policy a

theorem spriteAt (h : Alike o s u) {x y : Reg} (n : Nibble) (hx : u.getV x = s.getV x)
    (hy : u.getV y = s.getV y) : u.spriteAt x y n = s.spriteAt x y n := by
  simp only [State.spriteAt, State.loadBytes, h.sizes, h.base, h.byteAt, hx, hy]

/-! ### The same write to both states -/

/-- An update that neither reads nor writes what an observer may not see. -/
theorem update (h : Alike o s u) (f : State → State)
    (hf : ∀ v st n, f { s with v := v, st := st, inputs := n } =
      { f s with v := v, st := st, inputs := n }) : Alike o (f s) (f u) := by
  have hs : f s = { f s with v := s.v, st := s.st, inputs := s.inputs } := hf s.v s.st s.inputs
  have hfv : (f s).v = s.v := by rw [hs]
  have hfst : (f s).st = s.st := by rw [hs]
  have hfinputs : (f s).inputs = s.inputs := by rw [hs]
  obtain ⟨⟨v, st, n, rfl⟩, hregs, hst, hkeys, hrnd⟩ := h
  rw [hf v st n]
  exact ⟨⟨v, st, n, rfl⟩, fun r hr => (hregs r hr).trans (State.getV_congr hfv r).symm,
    hfst ▸ hst, hfinputs ▸ hkeys, hfinputs ▸ hrnd⟩

theorem setV (h : Alike o s u) (x : Reg) (b : Byte) : Alike o (s.setV x b) (u.setV x b) := by
  obtain ⟨⟨v, st, n, rfl⟩, hregs, hst, hkeys, hrnd⟩ := h
  refine ⟨⟨_, st, n, rfl⟩, fun r hr => ?_, hst, hkeys, hrnd⟩
  rw [State.getV_setV, State.getV_setV, hregs r hr]

theorem setResultFlag (h : Alike o s u) (x : Reg) (b f : Byte) :
    Alike o (s.setResultFlag x b f) (u.setResultFlag x b f) := (h.setV x b).setV VF f

theorem loadLowRegs (h : Alike o s u) (x : Reg) (a : Nat) :
    Alike o (s.loadLowRegs x a) (u.loadLowRegs x a) := by
  have hbyte := h.byteAt
  obtain ⟨⟨v, st, n, rfl⟩, hregs, hst, hkeys, hrnd⟩ := h
  refine ⟨⟨_, st, n, rfl⟩, fun r hr => ?_, hst, hkeys, hrnd⟩
  rw [State.getV_loadLowRegs, State.getV_loadLowRegs, hregs r hr, hbyte]

theorem setSt (h : Alike o s u) (b : Byte) : Alike o { s with st := b } { u with st := b } := by
  obtain ⟨⟨v, st, n, rfl⟩, hregs, -, hkeys, hrnd⟩ := h
  exact ⟨⟨v, b, n, rfl⟩, hregs, fun _ => rfl, hkeys, hrnd⟩

theorem skipIf (h : Alike o s u) (c : Bool) : Alike o (s.skipIf c) (u.skipIf c) :=
  h.update (·.skipIf c) fun _ _ _ => by cases c <;> rfl

theorem bumpIndex (h : Alike o s u) (x : Reg) : Alike o (s.bumpIndex x) (u.bumpIndex x) :=
  h.update (·.bumpIndex x) fun _ _ _ => by
    unfold State.bumpIndex
    cases s.policy.ldstIncrementI <;> rfl

theorem storeBytes (h : Alike o s u) (a : Nat) (bs : List Byte) :
    Alike o (s.storeBytes a bs) (u.storeBytes a bs) := by
  induction bs generalizing s u a with
  | nil => exact h
  | cons b bs ih => exact ih (h.update (·.storeByte a b) fun _ _ _ => rfl) (a + 1)

end Alike

/-! ### Ends of an instruction -/

/-- Both outcomes are next states, and the observer cannot tell these apart. -/
def EndsAlike (o : Observer) (a b : Host.Outcome State Fault Refusal) : Prop :=
  ∃ t u, a = .next t ∧ b = .next u ∧ Alike o t u

namespace EndsAlike

variable {o : Observer} {s u s' u' : State}

theorem finish {redraw : Bool} (h : Alike o s u) :
    EndsAlike o (Machine.finish redraw s) (Machine.finish redraw u) :=
  ⟨_, _, rfl, rfl, h.update (·.completed redraw) fun _ _ _ => rfl⟩

theorem raise {op : Word} {kind : FaultKind} {info : Option Nat} (h : Alike o s u) :
    EndsAlike o (Machine.raise op kind info s) (Machine.raise op kind info u) := by
  unfold Machine.raise
  rw [h.pc]
  exact ⟨_, _, rfl, rfl, h.update (·.takeFault _) fun _ _ _ => rfl⟩

theorem guard {op : Word} {readsY : Bool} {x y : Reg} (h : Alike o s u) (h' : Alike o s' u') :
    EndsAlike o (aluGuard op readsY x y s' s) (aluGuard op readsY x y u' u) := by
  unfold aluGuard
  rw [h.policy]
  split
  · exact raise h
  · exact finish h'

end EndsAlike

/-- Noninterference: an instruction whose reads the observer sees keeps states alike. -/
theorem exec_alike {o : Observer} {i : Instr} {s u : State} (h : Alike o s u)
    (sees : o.SeesReadsOf s.policy i) : EndsAlike o (exec i s) (exec i u) := by
  have hv (r : Reg) (hr : readsV s.policy i r) : u.getV r = s.getV r := h.regs r (sees.regs r hr)
  cases i with
  | cls => exact .finish (h.update (fun t => { t with fb := clearFB }) fun _ _ _ => rfl)
  | ret =>
    by_cases h0 : s.sp = 0
    · simp only [exec, execRet, s.pop_of_empty h0, u.pop_of_empty (h.sp.trans h0)]
      exact .raise h
    · simp only [exec, execRet, s.pop_of_ne h0, u.pop_of_ne (h.sp ▸ h0)]
      exact .finish (h.update (fun t => { t with sp := t.sp - 1, pc := t.stack.getD (t.sp - 1) 0 })
        fun _ _ _ => rfl)
  | sys nnn => exact .finish h
  | jp nnn => exact .finish (h.update (fun t => { t with pc := _ }) fun _ _ _ => rfl)
  | call nnn =>
    by_cases hfull : s.sp < s.sizes.stackDepth
    · have hfull' : u.sp < u.sizes.stackDepth := by rw [h.sp, h.sizes]; exact hfull
      simp only [exec, execCall, s.push_of_lt _ hfull, u.push_of_lt _ hfull']
      exact .finish (h.update (fun t =>
        { t with stack := t.stack.set t.sp t.pc, sp := t.sp + 1, pc := _ }) fun _ _ _ => rfl)
    · have hfull' : ¬ u.sp < u.sizes.stackDepth := by rw [h.sp, h.sizes]; exact hfull
      simp only [exec, execCall, s.push_of_full _ hfull, u.push_of_full _ hfull']
      exact .raise h
  | seImm x nn => simp only [exec, execSeImm, hv x rfl]; exact .finish (h.skipIf _)
  | sneImm x nn => simp only [exec, execSneImm, hv x rfl]; exact .finish (h.skipIf _)
  | seReg x y =>
    simp only [exec, execSeReg, hv x (.inl rfl), hv y (.inr rfl)]; exact .finish (h.skipIf _)
  | sneReg x y =>
    simp only [exec, execSneReg, hv x (.inl rfl), hv y (.inr rfl)]; exact .finish (h.skipIf _)
  | ldImm x nn => exact .finish (h.setV x nn)
  | addImm x nn => simp only [exec, execAddImm, hv x rfl]; exact .finish (h.setV x _)
  | ldReg x y => simp only [exec, execLdReg, hv y rfl]; exact .guard h (h.setV x _)
  | orReg x y =>
    simp only [exec, execOr, hv x (.inl rfl), hv y (.inr rfl)]; exact .guard h (h.setV x _)
  | andReg x y =>
    simp only [exec, execAnd, hv x (.inl rfl), hv y (.inr rfl)]; exact .guard h (h.setV x _)
  | xorReg x y =>
    simp only [exec, execXor, hv x (.inl rfl), hv y (.inr rfl)]; exact .guard h (h.setV x _)
  | addReg x y =>
    simp only [exec, execAddReg, hv x (.inl rfl), hv y (.inr rfl)]
    exact .guard h (h.setResultFlag x _ _)
  | sub x y =>
    simp only [exec, execSub, hv x (.inl rfl), hv y (.inr rfl)]
    exact .guard h (h.setResultFlag x _ _)
  | subn x y =>
    simp only [exec, execSubn, hv x (.inl rfl), hv y (.inr rfl)]
    exact .guard h (h.setResultFlag x _ _)
  | shr x y =>
    simp only [exec, execShr, h.policy, State.shiftOperand_congr h.policy hv]
    exact .guard h (h.setResultFlag x _ _)
  | shl x y =>
    simp only [exec, execShl, h.policy, State.shiftOperand_congr h.policy hv]
    exact .guard h (h.setResultFlag x _ _)
  | ldI nnn => exact .finish (h.update (fun t => { t with index := _ }) fun _ _ _ => rfl)
  | jpV0 nnn =>
    simp only [exec, execJpV0, hv 0 rfl]
    exact .finish (h.update (fun t => { t with pc := _ }) fun _ _ _ => rfl)
  | rnd x nn =>
    simp only [exec, execRnd, h.rnd8 (sees.rnd8 ⟨x, nn, rfl⟩)]
    exact .finish (h.setV x _)
  | drw x y n =>
    simp only [exec, execDrw, congrArg readCheck h.sizes, h.base, h.fb,
      h.spriteAt n (hv x (.inl rfl)) (hv y (.inr rfl))]
    split
    · exact .raise h
    · exact .finish ((h.update (fun t => { t with fb := _ }) fun _ _ _ => rfl).setV VF _)
  | skp x =>
    have hx := hv x rfl
    obtain ⟨hkeys, -⟩ := h.keys (sees.keys (.inl ⟨x, rfl⟩))
    simp only [exec, execSkp, State.keyIndex_congr hx h.policy, hx, State.isKeyDown_congr hkeys]
    split
    · exact .raise h
    · exact .finish (h.skipIf _)
  | sknp x =>
    have hx := hv x rfl
    obtain ⟨hkeys, -⟩ := h.keys (sees.keys (.inr (.inl ⟨x, rfl⟩)))
    simp only [exec, execSknp, State.keyIndex_congr hx h.policy, hx, State.isKeyDown_congr hkeys]
    split
    · exact .raise h
    · exact .finish (h.skipIf _)
  | ldVxDt x => simp only [exec, execLdVxDt, h.dt]; exact .finish (h.setV x _)
  | ldVxK x =>
    obtain ⟨hkeys, hpick⟩ := h.keys (sees.keys (.inr (.inr ⟨x, rfl⟩)))
    simp only [exec, execLdVxK, State.awaitKey, State.waitedKey_congr hkeys hpick h.policy]
    split
    · exact ⟨_, _, rfl, rfl, h.update State.stalled fun _ _ _ => rfl⟩
    · exact .finish (h.setV x _)
  | ldDtVx x =>
    simp only [exec, execLdDtVx, hv x rfl]
    exact .finish (h.update (fun t => { t with dt := _ }) fun _ _ _ => rfl)
  | ldStVx x => simp only [exec, execLdStVx, hv x rfl]; exact .finish (h.setSt _)
  | addIVx x =>
    simp only [exec, execAddIVx, h.index, hv x rfl]
    exact .finish (h.update (fun t => { t with index := _ }) fun _ _ _ => rfl)
  | ldFVx x =>
    have hx := hv x rfl
    simp only [exec, execLdFVx, State.fontDigit_congr hx h.policy, hx]
    split
    · exact .raise h
    · exact .finish (h.update (fun t =>
        { t with index := BitVec.ofNat 16 (t.sizes.fontBase + t.sizes.glyphBytes * _) }) fun _ _ _ => rfl)
  | ldBVx x =>
    simp only [exec, execLdBVx, h.sizes, h.policy, h.base, hv x rfl]
    split
    · exact .raise h
    · exact .finish (h.storeBytes _ _)
  | ldMemVx x =>
    simp only [exec, execLdMemVx, h.sizes, h.policy, h.base, State.lowRegs_congr hv]
    split
    · exact .raise h
    · exact .finish ((h.storeBytes _ _).bumpIndex x)
  | ldVxMem x =>
    simp only [exec, execLdVxMem, h.sizes, h.base]
    split
    · exact .raise h
    · exact .finish ((h.loadLowRegs x _).bumpIndex x)

/-- Noninterference, on the two next states. -/
theorem exec_alike_next {o : Observer} {i : Instr} {s s' t t' : State} (hs : Alike o s s')
    (sees : o.SeesReadsOf s.policy i) (h : exec i s = .next t) (h' : exec i s' = .next t') :
    Alike o t t' := by
  obtain ⟨u, u', hu, hu', halike⟩ := exec_alike hs sees
  cases h.symm.trans hu
  cases h'.symm.trans hu'
  exact halike

/-! ### V registers -/

/-- The observer of all but one register. -/
def Observer.allButReg (r : Reg) : Observer := ⟨(· ≠ r), True, True, True⟩

theorem alike_setV (s : State) (r : Reg) (b : Byte) :
    Alike (.allButReg r) s (s.setV r b) where
  frame := ⟨_, s.st, s.inputs, rfl⟩
  regs _ := s.getV_setV_ne b
  st _ := rfl
  keys _ := ⟨rfl, rfl⟩
  rnd8 _ := rfl

/-- Settles O52, with an observer who sees all but the register r. -/
theorem vRegistersHaveOnlyTheirReadersAndWriters :
    Obligations.VRegistersHaveOnlyTheirReadersAndWriters := by
  intro i s t h
  refine ⟨exec_regs h, fun u r b hr hu => ?_⟩
  have sees : (Observer.allButReg r).SeesReadsOf s.policy i :=
    ⟨fun _ hq e => hr (e ▸ hq), fun _ => trivial, fun _ => trivial⟩
  have halike := exec_alike_next (alike_setV s r b) sees h hu
  obtain ⟨-, -, hinputs, -⟩ := exec_env h
  obtain ⟨-, -, hinputs', -⟩ := exec_env hu
  have hframe := halike.eq_frame
  rw [halike.st trivial, hinputs'.trans hinputs.symm] at hframe
  exact ⟨halike.regs, hframe⟩

/-! ### The sound timer -/

/-- The observer of all but ST. -/
def Observer.allButSt : Observer := ⟨fun _ => True, False, True, True⟩

theorem alike_withSt (s : State) (b : Byte) : Alike .allButSt s { s with st := b } where
  frame := ⟨s.v, b, s.inputs, rfl⟩
  regs _ _ := rfl
  st := False.elim
  keys _ := ⟨rfl, rfl⟩
  rnd8 _ := rfl

/-- Settles O54, with an observer who sees all but ST. -/
theorem soundTimerIsNeverRead : Obligations.SoundTimerIsNeverRead := by
  intro i s t u b h hu
  have sees : Observer.allButSt.SeesReadsOf s.policy i :=
    ⟨fun _ _ => trivial, fun _ => trivial, fun _ => trivial⟩
  have halike := exec_alike_next (alike_withSt s b) sees h hu
  obtain ⟨-, -, hinputs, -⟩ := exec_env h
  obtain ⟨-, -, hinputs', -⟩ := exec_env hu
  have hframe := halike.eq_frame
  rw [State.v_ext fun r => halike.regs r trivial, hinputs'.trans hinputs.symm] at hframe
  refine ⟨hframe, ?_, ?_⟩
  · by_cases hi : ∃ x, i = .ldStVx x
    · obtain ⟨x, rfl⟩ := hi
      cases h; cases hu; exact .inl rfl
    · exact .inr (exec_st (fun x e => hi ⟨x, e⟩) hu)
  · rintro ⟨x, rfl⟩
    cases h; cases hu; rfl

end Sys2Proof.Machine
end

section
/-! The VF-operand check of family 8 (R24, R65). -/

namespace Sys2Proof.Machine

/-- A guarded instruction whose operands are refused takes the REGISTER fault of R24. -/
theorem faultEffect_of_refused {i : Instr} {readsY : Bool} {x y : Reg} {s t : State}
    (hexec : exec i s = aluGuard (encode i) readsY x y t s)
    (hrefused : vfOperandRefused s.policy readsY x y = true) :
    faultEffect i (.outOfBoundsAccess .register) (some 15) s :=
  hexec.trans (if_pos hrefused)

/-- Settles O39: X = VF is refused always, and Y = VF where Y is read, which the two shifts do under
SHIFT_SOURCE = VY only. -/
theorem vfOperandFaultsInFamilyEight : Obligations.VfOperandFaultsInFamilyEight := by
  intro s x y hpolicy
  refine ⟨fun hvf i hi => ?_, fun hvf i hi => ?_⟩
  · have hrefused : vfOperandRefused s.policy true x y = true := by
      simpa [vfOperandRefused, hpolicy] using hvf
    simp only [List.mem_cons, List.not_mem_nil, or_false] at hi
    rcases hi with rfl | rfl | rfl | rfl | rfl | rfl | rfl <;> exact faultEffect_of_refused rfl hrefused
  · have hrefused : vfOperandRefused s.policy (shiftReadsY s.policy) x y = true := by
      simpa [vfOperandRefused, shiftReadsY, hpolicy] using hvf
    simp only [List.mem_cons, List.not_mem_nil, or_false] at hi
    rcases hi with rfl | rfl <;> exact faultEffect_of_refused rfl hrefused

end Sys2Proof.Machine
end

section
/-! Memory (R39, R41, R44, R45, R55, R57): where an instruction stores, the two invariants that follow, the
host's Load, and the fetch after FX33 and FX55. -/

namespace Sys2Proof.Machine

/-! ### The canonical form -/

/-- A run of stores that stays below MEM_SIZE keeps the canonical form; an empty run has no address to
check. -/
theorem State.memWf_storeBytes_of_lt {s : State} {a : Nat} {bs : List Byte} (hs : s.memWf)
    (h : ∀ k < bs.length, a + k < s.sizes.memSize) : (s.storeBytes a bs).memWf := by
  rcases bs.eq_nil_or_concat with rfl | ⟨bs', b, rfl⟩
  · exact hs
  · have hlast := h bs'.length (by simp)
    exact State.memWf_storeBytes hs (by simp; omega)

/-- The canonical form speaks of the memory and the parameters alone. -/
theorem State.memWf_congr {s t : State} (hm : t.mem = s.mem) (hz : t.sizes = s.sizes)
    (hp : t.policy = s.policy) : t.memWf ↔ s.memWf := by
  rw [State.memWf, State.memWf, hm, hz, hp]

/-- A store lies where a program may write, so below MEM_SIZE. -/
theorem exec_keeps_memWf {i : Instr} {s t : State} (hs : s.memWf) (h : exec i s = .next t) :
    t.memWf := by
  obtain ⟨hsizes, hpolicy, -⟩ := exec_env h
  obtain hmem | ⟨bs, hmem, hwritable⟩ := exec_mem h
  · exact (State.memWf_congr hmem hsizes hpolicy).2 hs
  · have hstored : (s.storeBytes s.base bs).memWf :=
      State.memWf_storeBytes_of_lt hs fun k hk => (hwritable k hk).1
    exact (State.memWf_congr hmem (by simp [hsizes]) (by simp [hpolicy])).2 hstored

/-- Settles O16, as an invariant that only the instructions can touch. -/
theorem stepKeepsMemoryCanonical : Obligations.StepKeepsMemoryCanonical := fun _ _ hs h =>
  step_keeps (P := State.memWf) (fun _ hs => hs) (fun _ hs => hs) (fun _ _ hs => hs) (fun _ hs => hs)
    (fun _ _ _ => exec_keeps_memWf) hs h

/-! ### The glyph table -/

/-- An address that a program may not write reads after an instruction as before it (R41). -/
theorem exec_byteAt_of_not_writable {i : Instr} {s t : State} {a : Nat} (ha : ¬ s.writable a)
    (h : exec i s = .next t) : t.byteAt a = s.byteAt a := by
  obtain ⟨hsizes, hpolicy, -⟩ := exec_env h
  obtain hmem | ⟨bs, hmem, hwritable⟩ := exec_mem h
  · exact State.byteAt_congr hmem hsizes hpolicy a
  · rw [State.byteAt_congr hmem (by simp [hsizes]) (by simp [hpolicy]), State.byteAt_storeBytes]
    refine dif_neg fun ⟨hlow, hhigh⟩ => ha ?_
    simpa [Nat.add_sub_cancel' hlow] using hwritable (a - s.base) (by omega)

theorem State.not_writable_glyph {s : State} {a : Nat} (hp : s.policy.fontWrite = .fault)
    (ha : a < s.policy.fontTable.length) : ¬ s.writable (s.sizes.fontBase + a) := by
  rintro ⟨-, houtside⟩
  have := houtside hp
  unfold Policy.fontSize at this
  omega

/-- The table lies where no program may write. -/
theorem exec_keeps_glyphsIntact {i : Instr} {s t : State} (hp : s.policy.fontWrite = .fault)
    (hs : s.glyphsIntact) (h : exec i s = .next t) : t.glyphsIntact := by
  obtain ⟨hsizes, hpolicy, -⟩ := exec_env h
  unfold State.glyphsIntact
  rw [hsizes, hpolicy]
  exact fun a ha => (exec_byteAt_of_not_writable (State.not_writable_glyph hp ha) h).trans (hs a ha)

/-- Settles O17, as an invariant together with the policy, which no instruction changes. -/
theorem stepKeepsTheGlyphTable : Obligations.StepKeepsTheGlyphTable := by
  intro s t hp hs h
  refine step_keeps (P := fun u => u.glyphsIntact ∧ u.policy.fontWrite = .fault) (fun _ hu => hu)
    (fun _ hu => hu) (fun _ _ hu => hu) (fun _ hu => hu) (fun i u u' ⟨hglyphs, hfault⟩ h => ?_)
    ⟨hs, hp⟩ h
  obtain ⟨-, hpolicy, -⟩ := exec_env h
  exact ⟨exec_keeps_glyphsIntact hfault hglyphs h, hpolicy ▸ hfault⟩

/-! ### Load -/

theorem State.load_of_fits {s : State} {bytes : List Byte}
    (h : s.sizes.progBase + bytes.length ≤ s.sizes.memSize) :
    s.load (some bytes) = .ok (s.storeBytes s.sizes.progBase bytes) := if_neg h.not_gt

theorem State.load_of_exceeds {s : State} {bytes : List Byte}
    (h : s.sizes.memSize < s.sizes.progBase + bytes.length) :
    s.load (some bytes) = .error .capacity := if_pos h

/-- A run of stores changes no byte outside the addresses it writes. -/
theorem State.sameBytesOutside_storeBytes (s : State) (a : Nat) (bs : List Byte) :
    sameBytesOutside a bs.length s (s.storeBytes a bs) := fun k hk => by
  rw [State.byteAt_storeBytes, dif_neg (by omega)]

/-- A run of stores leaves byte j at the j-th address. -/
theorem State.byteAt_storeBytes_add (s : State) (a : Nat) {bs : List Byte} {j : Nat}
    (hj : j < bs.length) : (s.storeBytes a bs).byteAt (a + j) = bs[j] := by
  simp [State.byteAt_storeBytes, hj]

/-- Settles O22: a Load that fits is one run of stores from PROG_BASE on. -/
theorem loadCopiesTheProgramOrFails : Obligations.LoadCopiesTheProgramOrFails := by
  intro s bytes
  refine ⟨fun hfits => ?_, State.load_of_exceeds, rfl⟩
  exact ⟨_, State.load_of_fits hfits, fun j => s.byteAt_storeBytes_add _,
    s.sameBytesOutside_storeBytes _ bytes, s.storeBytes_eq _ bytes⟩

/-! ### Stores into code -/

/-- What FX55's stores leave (R112): V0..VX at a..a + X, and every other byte as before. -/
theorem State.byteAt_storeBytes_lowRegs (s : State) (x : Reg) (a k : Nat) :
    (s.storeBytes a (s.lowRegs x)).byteAt k =
      if a ≤ k ∧ k ≤ a + x.val then s.getV (Fin.ofNat 16 (k - a)) else s.byteAt k := by
  have hlen : (s.lowRegs x).length = x.val + 1 := by simp [State.lowRegs]
  rw [State.byteAt_storeBytes]
  by_cases hk : a ≤ k ∧ k ≤ a + x.val
  · have hreg : (k - a) % 16 = k - a := Nat.mod_eq_of_lt (by omega)
    rw [dif_pos (by omega), if_pos hk]
    simp [State.lowRegs, State.getV, hreg]
  · rw [dif_neg (by omega), if_neg hk]

/-- What FX33's stores leave (R111): the three digits from a on, and every other byte as before. -/
theorem State.byteAt_storeBytes_bcdDigits (s : State) (v : Byte) (a k : Nat) :
    (s.storeBytes a (bcdDigits v)).byteAt k =
      if k = a then BitVec.ofNat 8 (v.toNat / 100)
      else if k = a + 1 then BitVec.ofNat 8 (v.toNat / 10 % 10)
      else if k = a + 2 then BitVec.ofNat 8 (v.toNat % 10) else s.byteAt k := by
  -- The last store is the outermost case here; the three addresses differ, so the order is free.
  simp only [bcdDigits, State.storeBytes, State.byteAt_storeByte]
  grind

/-- FX55 that takes no fault has stored V0..VX from I on. -/
theorem exec_ldMemVx_completed {s t : State} {x : Reg} (hf : t.fault = none)
    (h : exec (.ldMemVx x) s = .next t) :
    t = ((s.storeBytes s.base (s.lowRegs x)).bumpIndex x).completed false := by
  simp only [exec, execLdMemVx] at h
  split at h
  · cases h; cases hf
  · cases h; rfl

/-- FX33 that takes no fault has stored the three digits from I on. -/
theorem exec_ldBVx_completed {s t : State} {x : Reg} (hf : t.fault = none)
    (h : exec (.ldBVx x) s = .next t) :
    t = (s.storeBytes s.base (bcdDigits (s.getV x))).completed false := by
  simp only [exec, execLdBVx] at h
  split at h
  · cases h; cases hf
  · cases h; rfl

/-- A fetch that is not refused reads the two bytes at PC and PC + 1 (R58). -/
theorem State.fetch_of_not_refused {s : State}
    (h : fetchRefused s.sizes s.policy s.pc.toNat = false) :
    s.fetch = some (wordOfBytes (s.byteAt s.pc.toNat) (s.byteAt (s.pc.toNat + 1))) := by
  simp [State.fetch, h]

/-- Settles O51: neither instruction moves PC or a parameter, so the next fetch is allowed as well, and it
reads the bytes that the stores left. -/
theorem storedBytesAreFetched : Obligations.StoredBytesAreFetched := by
  intro s t x hf hallowed
  refine ⟨fun h => ?_, fun h => ?_⟩
  · obtain rfl := exec_ldMemVx_completed hf h
    rw [State.fetch_of_not_refused (by simpa using hallowed)]
    simp [State.byteAt_storeBytes_lowRegs]
  · obtain rfl := exec_ldBVx_completed hf h
    rw [State.fetch_of_not_refused (by simpa using hallowed)]
    simp [State.byteAt_storeBytes_bcdDigits]

end Sys2Proof.Machine
end

section
/-! The decoder and the encoder: the two round trips and the unknown opcodes (R61, R62, R64 to R66). -/

namespace Sys2Proof

/-! ### Decoding an encoded instruction -/

/-- A word with low nibble 0 is accepted under every STRICT_LOW_NIBBLE. -/
@[simp] theorem lowNibbleOk_fmtXYN_zero (p : Policy) (f : Nibble) (x y : Reg) :
    lowNibbleOk p (fmtXYN f x y 0x0#4) = true := by
  simp [lowNibbleOk]

theorem decodeFamily_of_family8 (p : Policy) {op : Word} (h : opF op = 0x8#4) :
    decodeFamily p op = decodeFamily8 op := by
  simp [decodeFamily, h]

theorem decodeFamily_of_familyE (p : Policy) {op : Word} (h : opF op = 0xE#4) :
    decodeFamily p op = decodeFamilyE op := by
  simp [decodeFamily, h]

theorem decodeFamily_of_familyF (p : Policy) {op : Word} (h : opF op = 0xF#4) :
    decodeFamily p op = decodeFamilyF op := by
  simp [decodeFamily, h]

@[simp] theorem fmtA_inj (f : Nibble) {m n : Addr} : fmtA f m = fmtA f n ↔ m = n :=
  ⟨fun h => by simpa using congrArg opNNN h, congrArg _⟩

/-- Family 0 told apart by the low 12 bits of the word (R75). -/
theorem decodeFamily0_fmtA (nnn : Addr) :
    decodeFamily0 (fmtA 0x0#4 nnn) =
      if nnn = 0x0E0#12 then .cls else if nnn = 0x0EE#12 then .ret else .sys nnn := by
  have hcls : 0x00E0#16 = fmtA 0x0#4 0x0E0#12 := rfl
  have hret : 0x00EE#16 = fmtA 0x0#4 0x0EE#12 := rfl
  simp only [decodeFamily0, hcls, hret, fmtA_inj, opNNN_fmtA]

/-- The opcode map has a line for every encoded instruction, and it is that instruction's. -/
theorem decodeFamily_encode (p : Policy) {i : Instr} (h : i.wellFormed = true) :
    decodeFamily p (encode i) = some i := by
  cases i
  case cls | ret => rfl
  case sys nnn =>
    obtain ⟨hcls, hret⟩ : nnn ≠ 0x0E0#12 ∧ nnn ≠ 0x0EE#12 := by simpa [Instr.wellFormed] using h
    simp [encode, decodeFamily, decodeFamily0_fmtA, hcls, hret]
  case jp | call | ldI | jpV0 | seImm | sneImm | ldImm | addImm | rnd | seReg | sneReg | drw =>
    simp [encode, decodeFamily]
  case ldReg | orReg | andReg | xorReg | addReg | sub | shr | subn | shl =>
    rw [encode, decodeFamily_of_family8 p (opF_fmtXYN ..)]
    simp [decodeFamily8]
  case skp | sknp =>
    rw [encode, decodeFamily_of_familyE p (opF_fmtXI ..)]
    simp [decodeFamilyE]
  case ldVxDt | ldVxK | ldDtVx | ldStVx | addIVx | ldFVx | ldBVx | ldMemVx | ldVxMem =>
    rw [encode, decodeFamily_of_familyF p (opF_fmtXI ..)]
    simp [decodeFamilyF]

/-- Settles O1, format by format: each field is read back as it was written. -/
theorem decodeOfEncodeIsTheInstruction : Obligations.DecodeOfEncodeIsTheInstruction :=
  fun p _ h => (decode_ok_iff ..).2 (decodeFamily_encode p h)

/-- Settles O4: each word is the encoding of its instruction, so it decodes to it. -/
theorem specWordsDecodeToTheirInstructions : Obligations.SpecWordsDecodeToTheirInstructions := by
  have decodes : ∀ {op : Word} {i : Instr}, i.wellFormed = true → encode i = op →
      decode .default op = .ok i := fun hwf he => he ▸ decodeOfEncodeIsTheInstruction .default _ hwf
  and_intros <;> exact decodes rfl rfl

/-! ### Encoding a decoded word -/

/-- The mask keeps the fields above the low nibble, each of which has 16 values. -/
theorem fmtXYN_and_0xFFF0 (f : Nibble) (x y : Reg) (n : Nibble) :
    fmtXYN f x y n &&& 0xFFF0#16 = fmtXYN f x y 0x0#4 := by
  have hf : ∀ b : Nibble, b.zeroExtend 16 <<< 12 &&& 0xFFF0#16 = b.zeroExtend 16 <<< 12 := by decide
  have hx : ∀ b : Nibble, b.zeroExtend 16 <<< 8 &&& 0xFFF0#16 = b.zeroExtend 16 <<< 8 := by decide
  have hy : ∀ b : Nibble, b.zeroExtend 16 <<< 4 &&& 0xFFF0#16 = b.zeroExtend 16 <<< 4 := by decide
  have hn : ∀ b : Nibble, b.zeroExtend 16 &&& 0xFFF0#16 = (0x0#4).zeroExtend 16 := by decide
  simp only [fmtXYN, BitVec.and_or_distrib_right, hf, hx, hy, hn]

section
variable {op : Word} {f : Nibble}

/-- A format writes a word again from the word's own fields, where the fixed ones hold their values. -/
theorem fmtA_opNNN (hf : (opF op).toNat = f.toNat) : fmtA f (opNNN op) = op := by
  rw [← BitVec.eq_of_toNat_eq hf, fmtA_fields]

theorem fmtXI_opX_opNN (hf : (opF op).toNat = f.toNat) : fmtXI f (opX op) (opNN op) = op := by
  rw [← BitVec.eq_of_toNat_eq hf, fmtXI_fields]

theorem fmtXYN_opX_opY_opN (hf : (opF op).toNat = f.toNat) :
    fmtXYN f (opX op) (opY op) (opN op) = op := by
  rw [← BitVec.eq_of_toNat_eq hf, fmtXYN_fields]

theorem fmtXI_opX {nn : Byte} (hf : (opF op).toNat = f.toNat) (hnn : (opNN op).toNat = nn.toNat) :
    fmtXI f (opX op) nn = op := by
  rw [← BitVec.eq_of_toNat_eq hnn, fmtXI_opX_opNN hf]

theorem fmtXYN_opX_opY {n : Nibble} (hf : (opF op).toNat = f.toNat) (hn : (opN op).toNat = n.toNat) :
    fmtXYN f (opX op) (opY op) n = op := by
  rw [← BitVec.eq_of_toNat_eq hn, fmtXYN_opX_opY_opN hf]

/-- A word with its low four bits cleared is the word with low nibble 0. -/
theorem fmtXYN_opX_opY_zero (hf : (opF op).toNat = f.toNat) :
    fmtXYN f (opX op) (opY op) 0x0#4 = op &&& 0xFFF0#16 := by
  rw [← fmtXYN_and_0xFFF0 f _ _ (opN op), fmtXYN_opX_opY_opN hf]

end

theorem encode_decodeFamily0 {op : Word} (hf : (opF op).toNat = 0) :
    (decodeFamily0 op).wellFormed = true ∧ encode (decodeFamily0 op) = op := by
  obtain ⟨nnn, rfl⟩ : ∃ nnn, fmtA 0x0#4 nnn = op := ⟨_, fmtA_opNNN hf⟩
  rw [decodeFamily0_fmtA]
  split_ifs with hcls hret
  · exact ⟨rfl, hcls ▸ rfl⟩
  · exact ⟨rfl, hret ▸ rfl⟩
  · exact ⟨by simp [Instr.wellFormed, hcls, hret], rfl⟩

theorem encode_decodeFamily8 {op : Word} {i : Instr} (hf : (opF op).toNat = 8)
    (h : decodeFamily8 op = some i) : i.wellFormed = true ∧ encode i = op := by
  unfold decodeFamily8 at h
  split at h <;> cases h <;> exact ⟨rfl, fmtXYN_opX_opY hf ‹_›⟩

theorem encode_decodeFamilyE {op : Word} {i : Instr} (hf : (opF op).toNat = 0xE)
    (h : decodeFamilyE op = some i) : i.wellFormed = true ∧ encode i = op := by
  unfold decodeFamilyE at h
  split at h <;> cases h <;> exact ⟨rfl, fmtXI_opX hf ‹_›⟩

theorem encode_decodeFamilyF {op : Word} {i : Instr} (hf : (opF op).toNat = 0xF)
    (h : decodeFamilyF op = some i) : i.wellFormed = true ∧ encode i = op := by
  unfold decodeFamilyF at h
  split at h <;> cases h <;> exact ⟨rfl, fmtXI_opX hf ‹_›⟩

/-- An accepted low nibble is 0, or any nibble under STRICT_LOW_NIBBLE = IGNORE. -/
theorem fmtXYN_zero_of_lowNibbleOk {p : Policy} {op : Word} {f : Nibble}
    (hf : (opF op).toNat = f.toNat) (hok : lowNibbleOk p op = true) :
    fmtXYN f (opX op) (opY op) 0x0#4 = op ∨
      (p.strictLowNibble = .ignore ∧ fmtXYN f (opX op) (opY op) 0x0#4 = op &&& 0xFFF0#16) := by
  obtain hn | hignore : opN op = 0x0#4 ∨ p.strictLowNibble = .ignore := by
    simpa [lowNibbleOk] using hok
  · exact .inl (fmtXYN_opX_opY hf (congrArg BitVec.toNat hn))
  · exact .inr ⟨hignore, fmtXYN_opX_opY_zero hf⟩

/-- Settles O2, family by family: only the low nibble of families 5 and 9 is not kept. -/
theorem encodeOfDecodeIsTheWord : Obligations.EncodeOfDecodeIsTheWord := by
  intro p op i h
  rw [decode_ok_iff] at h
  have exactly : ∀ {q : Prop}, i.wellFormed = true ∧ encode i = op →
      i.wellFormed = true ∧ (encode i = op ∨ q) := fun ⟨hwf, he⟩ => ⟨hwf, .inl he⟩
  unfold decodeFamily at h
  -- Family f is alternative f + 1 of the opcode map, and the last one is no instruction.
  split at h
  case h_1 hf => cases h; exact exactly (encode_decodeFamily0 hf)
  case h_9 hf => exact exactly (encode_decodeFamily8 hf h)
  case h_15 hf => exact exactly (encode_decodeFamilyE hf h)
  case h_16 hf => exact exactly (encode_decodeFamilyF hf h)
  case h_2 hf | h_3 hf | h_11 hf | h_12 hf => cases h; exact exactly ⟨rfl, fmtA_opNNN hf⟩
  case h_4 hf | h_5 hf | h_7 hf | h_8 hf | h_13 hf => cases h; exact exactly ⟨rfl, fmtXI_opX_opNN hf⟩
  case h_14 hf => cases h; exact exactly ⟨rfl, fmtXYN_opX_opY_opN hf⟩
  case h_6 hf | h_10 hf =>
    obtain ⟨hok, ⟨⟩⟩ := Option.ite_none_right_eq_some.1 h
    exact ⟨rfl, (fmtXYN_zero_of_lowNibbleOk hf hok).imp_right fun ⟨hignore, he⟩ =>
      ⟨hignore, he, by simp⟩⟩
  case h_17 => cases h

/-! ### The words that decode to nothing -/

theorem decodeFamily8_none {op : Word} :
    decodeFamily8 op = none ↔ opN op ∈ [0x8#4, 0x9#4, 0xA#4, 0xB#4, 0xC#4, 0xD#4, 0xF#4] := by
  have hlt := (opN op).isLt
  unfold decodeFamily8
  split
  -- The last alternative has no operation, for the nibbles below 16 that the others leave.
  case h_10 => simp_all [← BitVec.toNat_inj]; omega
  all_goals simp_all [← BitVec.toNat_inj]

theorem decodeFamilyE_none {op : Word} : decodeFamilyE op = none ↔ opNN op ∉ [0x9E#8, 0xA1#8] := by
  unfold decodeFamilyE
  split <;> simp_all [← BitVec.toNat_inj]

theorem decodeFamilyF_none {op : Word} :
    decodeFamilyF op = none ↔
      opNN op ∉ [0x07#8, 0x0A#8, 0x15#8, 0x18#8, 0x1E#8, 0x29#8, 0x33#8, 0x55#8, 0x65#8] := by
  unfold decodeFamilyF
  split <;> simp_all [← BitVec.toNat_inj]

theorem lowNibbleOk_eq_false {p : Policy} {op : Word} :
    lowNibbleOk p op = false ↔ p.strictLowNibble = .fault ∧ opN op ≠ 0x0#4 := by
  have hpolicy : p.strictLowNibble ≠ .ignore ↔ p.strictLowNibble = .fault := by
    cases p.strictLowNibble <;> simp
  simp [lowNibbleOk, hpolicy, and_comm]

/-- Only families 5, 8, 9, E and F hold words that are no instruction. -/
theorem decodeFamily_none {p : Policy} {op : Word} :
    decodeFamily p op = none ↔
      ((opF op = 0x5#4 ∨ opF op = 0x9#4) ∧ lowNibbleOk p op = false) ∨
      (opF op = 0x8#4 ∧ decodeFamily8 op = none) ∨
      (opF op = 0xE#4 ∧ decodeFamilyE op = none) ∨
      (opF op = 0xF#4 ∧ decodeFamilyF op = none) := by
  have hlt := (opF op).isLt
  unfold decodeFamily
  split
  -- No family nibble is left for the last alternative.
  case h_17 => simp only [imp_false] at *; omega
  all_goals simp_all [← BitVec.toNat_inj]

/-- Settles O3, from the none cases of the opcode map and of its three inner ones. -/
theorem unknownOpcodesAreExactlyTheListedOnes :
    Obligations.UnknownOpcodesAreExactlyTheListedOnes := by
  intro p op
  have hnone : decode p op = .error (.unknownOpcode op) ↔ decodeFamily p op = none := by
    simp [decode_error_iff]
  rw [hnone, decodeFamily_none, lowNibbleOk_eq_false, decodeFamily8_none, decodeFamilyE_none,
    decodeFamilyF_none, and_left_comm]
  rfl

/-! ### The fetched word as a number -/

/-- The byte at the lower address is the high one (R46, R58). -/
theorem wordOfBytes_toNat (hi lo : Byte) : (wordOfBytes hi lo).toNat = hi.toNat * 256 + lo.toNat := by
  have hhi := hi.isLt
  have hlo := lo.isLt
  have hor : (wordOfBytes hi lo).toNat = hi.toNat <<< 8 ||| lo.toNat := by
    simp only [wordOfBytes, BitVec.toNat_or, BitVec.toNat_shiftLeft, BitVec.truncate_eq_setWidth,
      BitVec.toNat_setWidth]
    rw [Nat.mod_eq_of_lt (by omega : hi.toNat < 2 ^ 16), Nat.mod_eq_of_lt (by omega : lo.toNat < 2 ^ 16),
      Nat.mod_eq_of_lt (by rw [Nat.shiftLeft_eq]; omega)]
  rw [hor, ← Nat.shiftLeft_add_eq_or_of_lt hlo, Nat.shiftLeft_eq]

end Sys2Proof
end

section
/-! The step: fetch, decode, execute, and the ends of a step (R58, R66, R68, R69, R115, R116). -/

namespace Sys2Proof.Machine

/-! ### What a step is -/

/-- A core that is not halted is ticked, runs one Step, and is given the next inputs. -/
theorem step_of_not_halted {s : State} (hf : s.fault = none) :
    step s = afterStep (coreStep s.applyTicks) := by
  simp [step, hf]

/-- A halted core has no step (R116). -/
theorem step_of_halted {s : State} {r : FaultRecord} (hf : s.fault = some r) :
    step s = .fault (.halted r) := by
  simp [step, hf]

/-- A refused fetch is the Step's own fault (R58). -/
theorem coreStep_of_fetch_none {s : State} (h : s.fetch = none) :
    coreStep s =
      .next (s.takeFault ⟨.outOfBoundsAccess .fetch, s.pc, none, some s.pc.toNat⟩) := by
  simp [coreStep, h]

/-- A word that decodes is executed on the advanced state (R59, R68). -/
theorem coreStep_of_decode {s : State} {op : Word} {i : Instr} (hf : s.fetch = some op)
    (hd : decode s.policy op = .ok i) : coreStep s = exec i s.advance := by
  simp [coreStep, hf, hd]

/-- A word that does not decode is the Step's own fault, at the address it was fetched from (R66). -/
theorem coreStep_of_unknown {s : State} {op : Word} (hf : s.fetch = some op)
    (hd : decode s.policy op = .error (.unknownOpcode op)) :
    coreStep s = .next (s.advance.takeFault ⟨.unknownOpcode, s.pc, some op, none⟩) := by
  simp [coreStep, hf, hd]

/-- Settles O9: a core that is not halted has a next state by `coreStep_total`, and a halted one answers
its fault. -/
theorem stepIsTotalUnlessHalted : Obligations.StepIsTotalUnlessHalted := by
  intro s
  have hnext : s.fault = none → ∃ t, step s = .next t := fun hf =>
    have ⟨_, ht⟩ := coreStep_total s.applyTicks
    ⟨_, step_of_coreStep hf ht⟩
  refine ⟨⟨hnext, fun ⟨_, ht⟩ => (step_next ht).1⟩, fun r hr => ?_⟩
  cases hf : s.fault with
  | none =>
    obtain ⟨t, ht⟩ := hnext hf
    rw [ht] at hr; cases hr
  | some _ => rw [step_of_halted hf] at hr; cases hr

/-- Settles O5: the ticks change neither the fetch nor the policy, so the word decoded is the one at PC. -/
theorem stepRunsTheDecodedInstruction : Obligations.StepRunsTheDecodedInstruction := by
  intro s hf
  refine ⟨step_of_not_halted hf, fun i hallowed hd => ?_⟩
  have hfetch : s.applyTicks.fetch = _ := State.fetch_of_not_refused hallowed
  rw [step_of_not_halted hf, coreStep_of_decode hfetch hd]

/-! ### The fetch -/

theorem fetchRefused_iff {z : Sizes} {p : Policy} {pc0 : Nat} :
    fetchRefused z p pc0 = true ↔
      (p.fetchCheck = .strict ∧ (pc0 % 2 = 1 ∨ pc0 < z.progBase)) ∨ z.memSize < pc0 + 2 := by
  simp [fetchRefused]

theorem State.fetch_of_refused {s : State} (h : fetchRefused s.sizes s.policy s.pc.toNat = true) :
    s.fetch = none := if_pos h

/-- Settles O6: the FETCH check is the condition the statement writes out. -/
theorem fetchIsRefusedOrBigEndian : Obligations.FetchIsRefusedOrBigEndian := by
  intro s pc0 refused
  have hrefused : fetchRefused s.sizes s.policy pc0 = true ↔ refused := fetchRefused_iff
  refine ⟨fun hf h => ?_, fun h => ?_⟩
  · have hfetch : s.applyTicks.fetch = none := State.fetch_of_refused (hrefused.2 h)
    exact ⟨_, step_of_coreStep hf (coreStep_of_fetch_none hfetch), rfl, rfl, rfl⟩
  · have hallowed : fetchRefused s.sizes s.policy pc0 = false := by simpa [← hrefused] using h
    exact ⟨_, State.fetch_of_not_refused hallowed, wordOfBytes_toNat ..⟩

/-- Settles O7: the fetch reads the same word after the ticks, and the fault puts PC back. -/
theorem unknownOpcodeHaltsTheCore : Obligations.UnknownOpcodeHaltsTheCore := by
  intro s op hf hfetch hd
  have hticked : s.applyTicks.fetch = some op := hfetch
  exact ⟨_, step_of_coreStep hf (coreStep_of_unknown hticked hd), rfl, rfl, rfl⟩

/-! ### The stall -/

/-- FX0A stalls only while no key is down (R69, R108). -/
theorem State.waitedKey_of_stall {s : State} {x : Reg} (h : (s.awaitKey x).result = some .stall) :
    s.waitedKey = none := by
  unfold State.awaitKey at h
  split at h
  · assumption
  · cases h

/-- The only instruction that stalls is FX0A, with no key down (R69). -/
theorem exec_stall {i : Instr} {s t : State} (h : exec i s = .next t) (hr : t.result = some .stall) :
    (∃ x, i = .ldVxK x) ∧ s.waitedKey = none ∧ t = s.stalled := by
  cases exec_end h with
  | fault _ _ ht => subst ht; cases hr
  | done _ hdone => rw [hdone] at hr; cases hr
  | stall x hi ht =>
    subst hi
    have hawait : t = s.awaitKey x := by cases h; rfl
    exact ⟨⟨x, rfl⟩, State.waitedKey_of_stall (hawait ▸ hr), ht⟩

/-- The stall takes back the fetch's advance (R69). -/
theorem State.stalled_advance (s : State) : s.advance.stalled = { s with result := some .stall } := by
  simp [State.advance, State.stalled]

/-- Settles O11: the Step's own two faults do not stall, and FX0A gives the state back. -/
theorem stallChangesNothing : Obligations.StallChangesNothing := by
  intro s t h hr
  cases coreStep_end h with
  | fetchFault _ ht => subst ht; cases hr
  | unknown _ _ _ ht => subst ht; cases hr
  | exec op i hfetch hd hexec =>
    obtain ⟨⟨x, rfl⟩, hkey, ht⟩ := exec_stall hexec hr
    rw [State.stalled_advance] at ht
    subst ht
    exact ⟨rfl, rfl, rfl, State.waitedKey_none.1 hkey, op, x, hfetch, hd⟩

end Sys2Proof.Machine
end

section
/-! Families 0, 1, 2 and B: CLS, RET, SYS, JP, CALL and JP V0 (R73 to R77, R98), and the return of a call
(R78). -/

namespace Sys2Proof.Machine

/-! ### The Encoding line of a rule -/

/-- The word that an instruction is encoded as decodes to it under every policy. -/
theorem decodesTo_of_encode {k : Nat} {i : Instr} (hwf : i.wellFormed = true)
    (hk : BitVec.ofNat 16 k = encode i) : decodesTo k i := fun p =>
  hk ▸ decodeOfEncodeIsTheInstruction p i hwf

/-! ### CLS, SYS and the jumps -/

/-- Settles O24: CLS leaves the framebuffer of ClearFB, whatever it was. -/
theorem clsClearsTheFramebuffer : Obligations.ClsClearsTheFramebuffer :=
  ⟨decodesTo_of_encode rfl rfl, fun _ => ⟨_, rfl, pixelAt_clearFB, fun _ => rfl, rfl⟩⟩

/-- Settles O27: a family-0 word is a well-formed SYS as soon as it is none of the two others. -/
theorem sysIsANoOp : Obligations.SysIsANoOp := by
  refine fun s nnn => ⟨fun hcls hret => ?_, _, rfl, fun _ => rfl, rfl⟩
  have hwf : (Instr.sys nnn).wellFormed = true :=
    Bool.and_eq_true_iff.2 ⟨bne_iff_ne.2 hcls, bne_iff_ne.2 hret⟩
  exact decodesTo_of_encode hwf (ofNat_fmtA 0x0#4 nnn (by simp))

/-- An address field becomes the PC of the same value. -/
theorem toNat_zeroExtend_addr (nnn : Addr) : (nnn.zeroExtend 16 : Word).toNat = nnn.toNat :=
  BitVec.toNat_setWidth_of_le (by decide)

/-- The target of JP V0 stays below 2^16, so the sum is exact (R98). -/
theorem toNat_zeroExtend_addr_add_byte (nnn : Addr) (b : Byte) :
    (nnn.zeroExtend 16 + b.zeroExtend 16 : Word).toNat = nnn.toNat + b.toNat := by
  have hn := nnn.isLt
  have hb := b.isLt
  rw [BitVec.toNat_add, toNat_zeroExtend_addr, BitVec.toNat_setWidth_of_le (by decide),
    Nat.mod_eq_of_lt (by omega)]

/-- Settles O28: both jumps write PC alone, JP V0 with a sum that does not wrap. -/
theorem jumpsSetThePc : Obligations.JumpsSetThePc := fun s nnn =>
  ⟨decodesTo_of_encode rfl (ofNat_fmtA 0x1#4 nnn rfl),
    ⟨_, rfl, toNat_zeroExtend_addr nnn, fun _ => rfl, rfl⟩,
    decodesTo_of_encode rfl (ofNat_fmtA 0xB#4 nnn rfl),
    ⟨_, rfl, toNat_zeroExtend_addr_add_byte nnn (s.getV 0), fun _ => rfl, rfl⟩⟩

/-! ### RET and CALL -/

/-- RET with a slot in use pops it into PC (R74). -/
theorem exec_ret_of_ne {s : State} (h : s.sp ≠ 0) :
    exec .ret s = .next
      ({ s with sp := s.sp - 1, pc := s.stack.getD (s.sp - 1) 0 }.completed false) := by
  simp [exec, execRet, s.pop_of_ne h]

/-- RET with no slot in use raises StackUnderflow (R74). -/
theorem faultTaken_ret {s : State} (h : s.sp = 0) : faultTaken .ret .stackUnderflow s :=
  ⟨none, by simp only [faultEffect, exec, execRet, s.pop_of_empty h]; rfl⟩

/-- CALL with a free slot pushes PC and jumps (R77). -/
theorem exec_call_of_lt {s : State} (nnn : Addr) (h : s.sp < s.sizes.stackDepth) :
    exec (.call nnn) s = .next
      ({ s with stack := s.stack.set s.sp s.pc, sp := s.sp + 1, pc := nnn.zeroExtend 16 }.completed
        false) := by
  simp [exec, execCall, s.push_of_lt s.pc h]

/-- CALL with no free slot raises StackOverflow (R77). -/
theorem faultTaken_call {s : State} (nnn : Addr) (h : ¬ s.sp < s.sizes.stackDepth) :
    faultTaken (.call nnn) .stackOverflow s :=
  ⟨none, by simp only [faultEffect, exec, execCall, s.push_of_full s.pc h]; rfl⟩

/-- Settles O25: the popped slot lies among the STACK_DEPTH slots, and it is not cleared. -/
theorem retPopsOrUnderflows : Obligations.RetPopsOrUnderflows := by
  refine ⟨decodesTo_of_encode rfl rfl, fun s => ⟨fun ⟨hlen, hle⟩ hne => ?_, faultTaken_ret⟩⟩
  have hslot : s.sp - 1 < s.stack.length := by omega
  refine ⟨_, exec_ret_of_ne hne, ?_, rfl, fun _ => rfl, rfl⟩
  simp [State.completed, hslot]

/-- Settles O26: the pushed slot lies among the STACK_DEPTH slots, and no other one is written. -/
theorem callPushesOrOverflows : Obligations.CallPushesOrOverflows := by
  refine fun s nnn => ⟨decodesTo_of_encode rfl (ofNat_fmtA 0x2#4 nnn rfl), fun ⟨hlen, _⟩ hlt => ?_,
    fun hfull => faultTaken_call nnn hfull.not_lt⟩
  exact ⟨_, exec_call_of_lt nnn hlt, List.getElem?_set_self (hlen ▸ hlt),
    fun j hj => List.getElem?_set_ne hj.symm, rfl, toNat_zeroExtend_addr nnn, fun _ => rfl, rfl⟩

/-! ### The return of a call -/

/-- A step that fetches the word of an instruction executes it, between the ticks and the next inputs. -/
theorem step_of_fetch_encode {s u : State} {i : Instr} (hwf : i.wellFormed = true)
    (hfetch : s.fetch = some (encode i)) (h : step s = .next u) :
    s.fault = none ∧ ∃ t, exec i s.applyTicks.advance = .next t ∧ u = t.drawInputs := by
  obtain ⟨hf, t, hcore, hu⟩ := step_next h
  have hticked : s.applyTicks.fetch = some (encode i) := hfetch
  rw [coreStep_of_decode hticked (decodeOfEncodeIsTheInstruction _ i hwf)] at hcore
  exact ⟨hf, t, hcore, hu⟩

/-- A step that fetches a CALL leaves the address of the next word in the slot it takes (R77). -/
theorem step_call_slot {s t : State} {nnn : Addr} (hwf : s.stackWf)
    (hlt : s.sp < s.sizes.stackDepth) (hfetch : s.fetch = some (encode (.call nnn)))
    (h : step s = .next t) : t.stack[s.sp]? = some (s.pc + 2) := by
  obtain ⟨-, t', hexec, rfl⟩ := step_of_fetch_encode rfl hfetch h
  rw [exec_call_of_lt (s := s.applyTicks.advance) nnn hlt] at hexec
  cases hexec
  exact List.getElem?_set_self (hwf.1 ▸ hlt)

/-- A step that fetches a RET resumes at the address in the last slot in use and frees it (R74). -/
theorem step_ret_resumes {u w : State} {k : Nat} {a : Word} (hsp : u.sp = k + 1)
    (hslot : u.stack[k]? = some a) (hfetch : u.fetch = some (encode .ret)) (h : step u = .next w) :
    w.pc = a ∧ w.sp = k ∧ w.fault = none := by
  obtain ⟨hf, t, hexec, rfl⟩ := step_of_fetch_encode rfl hfetch h
  have hne : u.applyTicks.advance.sp ≠ 0 := by simp [hsp]
  rw [exec_ret_of_ne hne] at hexec
  cases hexec
  simp [State.completed, hsp, hslot, hf]

/-- A step changes no slot below SP that stays in use: its ticks, its own faults and the next inputs write
no slot at all. -/
theorem step_keeps_slot {s u : State} {k : Nat} (hs : k < s.sp) (hu : k < u.sp)
    (h : step s = .next u) : u.stack[k]? = s.stack[k]? := by
  obtain ⟨-, t, hcore, rfl⟩ := step_next h
  cases coreStep_end hcore with
  | fetchFault _ ht => subst ht; rfl
  | unknown _ _ _ ht => subst ht; rfl
  | exec _ i _ _ hexec =>
    have hkept := slotsInUseAreKept i _ t k hexec
    exact hkept hs hu

/-- A run that has more than k slots in use all along keeps slot k. -/
theorem StepsAbove.keeps_slot {k : Nat} {s u : State} (run : StepsAbove k s u) :
    k < u.sp ∧ u.stack[k]? = s.stack[k]? := by
  induction run with
  | refl h => exact ⟨h, rfl⟩
  | tail _ one h ih =>
    obtain ⟨hlt, hkept⟩ := ih
    exact ⟨h, (step_keeps_slot hlt h one).trans hkept⟩

/-- Settles O29: the call writes its slot, the run in between keeps it, and the return reads it. -/
theorem callThenReturnResumesAfterTheCall : Obligations.CallThenReturnResumesAfterTheCall := by
  intro s t u w nnn hwf hlt hcall hst run hsp hret huw
  obtain ⟨-, hkept⟩ := run.keeps_slot
  exact step_ret_resumes hsp (hkept.trans (step_call_slot hwf hlt hcall hst)) hret huw

end Sys2Proof.Machine
end

section
/-! The skips: SE, SNE, SKP and SKNP (R71, R79 to R82, R101, R103, R104). -/

namespace Sys2Proof.Machine

/-! ### The effect of a skip -/

theorem State.skipIf_pc (s : State) (c : Bool) :
    (s.skipIf c).pc = if c then s.pc + 2 else s.pc := by cases c <;> rfl

/-- A completed skip writes PC alone (R71). -/
theorem State.completed_skipIf (s : State) (c : Bool) :
    (s.skipIf c).completed false =
      { s with pc := (s.skipIf c).pc, result := some (.done false) } := by cases c <;> rfl

/-- An instruction that ends as a skip on a condition has the effect of that skip. -/
theorem skipEffect_of_skipIf {i : Instr} {s : State} {c : Bool} {cond : Prop} (hc : c = true ↔ cond)
    (h : exec i s = finish false (s.skipIf c)) : skipEffect i cond s := by
  refine ⟨_, h, fun hcond => ?_, fun hcond => ?_, s.skipIf_byteAt c, s.completed_skipIf c⟩
  · exact (s.skipIf_pc c).trans (if_pos (hc.2 hcond))
  · exact (s.skipIf_pc c).trans (if_neg (mt hc.1 hcond))

/-- The key index of a test that does not fault is V[X], masked where it is above 15 (R101). -/
theorem State.keyIndex_some {s : State} {x : Reg} {k : Nat} (h : s.keyIndex x = some k) :
    k = (s.getV x).toNat % 16 := by
  simp only [State.keyIndex] at h
  split at h
  · cases h; exact (Nat.mod_eq_of_lt ‹_›).symm
  · split at h <;> cases h; rfl

/-- A skip that takes no fault skips exactly when its condition holds. -/
theorem exec_skip_completed {i : Instr} {s t : State} (hi : isSkip i) (hf : t.fault = none)
    (h : exec i s = .next t) :
    ∃ c : Bool, (c = true ↔ skipTaken i s) ∧ t = (s.skipIf c).completed false := by
  cases i
  case seImm | sneImm | seReg | sneReg => cases h; refine ⟨_, ?_, rfl⟩; exact decide_eq_true_iff
  case skp x | sknp x =>
    simp only [exec, execSkp, execSknp] at h
    split at h <;> cases h
    · cases hf
    · rename_i k hk
      exact ⟨_, by simp [skipTaken, State.isKeyDown, State.keyIndex_some hk], rfl⟩
  all_goals exact hi.elim

/-- The fetch's advance changes nothing that a skip's condition reads. -/
theorem skipTaken_advance {i : Instr} {s : State} : skipTaken i s.advance ↔ skipTaken i s := by
  cases i <;> exact Iff.rfl

/-- Settles O33: the fetch advances PC by 2 and a skip that is taken by 2 more, and neither writes
anything else. -/
theorem skipAdvancesPcByFourOrTwo : Obligations.SkipAdvancesPcByFourOrTwo := by
  intro s t op i _ hfetch hd hi hcore hf
  rw [coreStep_of_decode hfetch hd] at hcore
  obtain ⟨c, hc, rfl⟩ := exec_skip_completed hi hf hcore
  rw [skipTaken_advance] at hc
  have hpc : (s.advance.skipIf c).pc = if c then s.pc + 4 else s.pc + 2 := by
    rw [State.skipIf_pc, State.advance_pc, BitVec.add_assoc]; rfl
  refine ⟨fun htaken => ?_, fun htaken => ?_, s.advance.completed_skipIf c⟩
  · exact hpc.trans (if_pos (hc.2 htaken))
  · exact hpc.trans (if_neg (mt hc.1 htaken))

/-! ### The comparisons -/

/-- What families 5 and 9 do with the low nibble (R65): 0 is accepted always, the others under
STRICT_LOW_NIBBLE = IGNORE only. -/
theorem decode_of_lowNibble {p : Policy} {op : Word} {i : Instr} {n : Nibble} (hnibble : opN op = n)
    (h : decodeFamily p op = if lowNibbleOk p op then some i else none) :
    (n = 0 ∨ p.strictLowNibble = .ignore → decode p op = .ok i) ∧
      (n ≠ 0 → p.strictLowNibble = .fault → decode p op = .error (.unknownOpcode op)) := by
  subst hnibble
  refine ⟨fun hok => ?_, fun hn hp => ?_⟩
  · have haccepted : lowNibbleOk p op = true := by simpa [lowNibbleOk] using hok
    rw [decode_ok_iff, h, if_pos haccepted]
  · have hrefused : lowNibbleOk p op = false := lowNibbleOk_eq_false.2 ⟨hp, hn⟩
    simp [decode_error_iff, h, hrefused]

/-- Settles O31: the two immediate forms are decoded from their encodings, the two register forms by the
check of their low nibble, and each of the four ends as a skip on its comparison. -/
theorem comparisonsSkip : Obligations.ComparisonsSkip := by
  intro s x y nn
  refine ⟨decodesTo_of_encode rfl (ofNat_fmtXI 0x3#4 x nn rfl),
    decodesTo_of_encode rfl (ofNat_fmtXI 0x4#4 x nn rfl), fun p n => ?_,
    skipEffect_of_skipIf decide_eq_true_iff rfl, skipEffect_of_skipIf decide_eq_true_iff rfl,
    skipEffect_of_skipIf decide_eq_true_iff rfl, skipEffect_of_skipIf decide_eq_true_iff rfl⟩
  intro low word5 word9
  have h5 : word5 = fmtXYN 0x5#4 x y n := ofNat_fmtXYN _ x y n (by simp [low, Nat.add_assoc])
  have h9 : word9 = fmtXYN 0x9#4 x y n := ofNat_fmtXYN _ x y n (by simp [low, Nat.add_assoc])
  obtain ⟨hok5, herr5⟩ := decode_of_lowNibble (p := p) (op := word5) (i := .seReg x y) (n := n)
    (by simp [h5]) (by simp [h5, decodeFamily])
  obtain ⟨hok9, herr9⟩ := decode_of_lowNibble (p := p) (op := word9) (i := .sneReg x y) (n := n)
    (by simp [h9]) (by simp [h9, decodeFamily])
  exact ⟨fun hok => ⟨hok5 hok, hok9 hok⟩, fun hn hp => ⟨herr5 hn hp, herr9 hn hp⟩⟩

end Sys2Proof.Machine
end

section
/-! Families 6, 7 and 8: immediates, moves, logic, arithmetic and shifts (R83 to R96). -/

namespace Sys2Proof.Machine

/-! ### The two forms of a result -/

/-- An instruction that ends with one register written has that effect and no other. -/
theorem regEffect_of_setV {i : Instr} {x : Reg} {b : Byte} {value : Nat} {s : State}
    (hexec : exec i s = finish false (s.setV x b)) (hvalue : b.toNat = value) :
    regEffect i x value s :=
  ⟨_, hexec, (congrArg BitVec.toNat (s.getV_setV_same x b)).trans hvalue,
    fun _ hr => s.getV_setV_ne b hr, fun _ => rfl, rfl⟩

/-- An instruction that ends with a result and then its flag written has that effect and no other: the
flag is the last write, so it stands in VF even where X is VF (R84). -/
theorem flagEffect_of_setResultFlag {i : Instr} {x : Reg} {b f : Byte} {value flag : Nat} {s : State}
    (hexec : exec i s = finish false (s.setResultFlag x b f)) (hvalue : b.toNat = value)
    (hflag : f.toNat = flag) : flagEffect i x value flag s := by
  have hget (r : Reg) : ((s.setResultFlag x b f).completed false).getV r =
      if r = VF then f else if r = x then b else s.getV r := s.getV_setResultFlag x r b f
  refine ⟨_, hexec, fun hx => ?_, ?_, fun r hr => ?_, fun _ => rfl, rfl⟩
  · rw [hget, if_neg hx, if_pos rfl, hvalue]
  · rw [hget, if_pos rfl, hflag]
  · obtain ⟨hrx, hrvf⟩ := not_or.1 hr
    rw [hget, if_neg hrvf, if_neg hrx]

/-! ### Family 8 -/

/-- The VF-operand check admits everything under FLAG_LAST, and under FAULT the operands that are not VF,
where Y counts only if it is read (R24, R65). -/
theorem vfOperandRefused_eq_false {p : Policy} {readsY : Bool} {x y : Reg} :
    vfOperandRefused p readsY x y = false ↔
      p.vfAluOperand = .flagLast ∨ (x ≠ VF ∧ (readsY = true → y ≠ VF)) := by
  unfold vfOperandRefused
  cases p.vfAluOperand <;> simp

/-- A guarded instruction whose operands are admitted completes with its result. -/
theorem aluGuard_of_admitted {op : Word} {readsY : Bool} {x y : Reg} {t s : State}
    (h : s.policy.vfAluOperand = .flagLast ∨ (x ≠ VF ∧ (readsY = true → y ≠ VF))) :
    aluGuard op readsY x y t s = finish false t :=
  if_neg (Bool.eq_false_iff.1 (vfOperandRefused_eq_false.2 h))

/-- Under the hypothesis of the operations that always read Y, their check admits the operands. -/
theorem aluGuard_of_not_vf {op : Word} {x y : Reg} {t s : State}
    (h : s.policy.vfAluOperand = .flagLast ∨ (x ≠ VF ∧ y ≠ VF)) :
    aluGuard op true x y t s = finish false t :=
  aluGuard_of_admitted (h.imp_right fun ⟨hx, hy⟩ => ⟨hx, fun _ => hy⟩)

/-- The check of the two shifts, which read Y under SHIFT_SOURCE = VY only (R65). -/
theorem aluGuard_of_shift {op : Word} {x y : Reg} {t s : State}
    (h : s.policy.vfAluOperand = .flagLast ∨
      (x ≠ VF ∧ (s.policy.shiftSource = .vy → y ≠ VF))) :
    aluGuard op (shiftReadsY s.policy) x y t s = finish false t :=
  aluGuard_of_admitted (h.imp_right fun ⟨hx, hy⟩ => ⟨hx, fun hreads => hy (of_decide_eq_true hreads)⟩)

/-- The word of a family-8 operation, by its low nibble. -/
theorem ofNat_family8 (x y : Reg) (n : Nibble) :
    BitVec.ofNat 16 (0x8000 + n.toNat + 0x100 * x.val + 0x10 * y.val) = fmtXYN 0x8#4 x y n :=
  ofNat_fmtXYN 0x8#4 x y n (by simp; omega)

/-- The shifts read the register that SHIFT_SOURCE names (R94, R96). -/
theorem State.shiftOperand_eq (s : State) (x y : Reg) :
    s.shiftOperand x y = s.getV (if s.policy.shiftSource = .vy then y else x) := by
  unfold State.shiftOperand
  cases s.policy.shiftSource <;> rfl

/-! ### The flags as numbers -/

theorem toNat_flagByte (b : Bool) : (flagByte b).toNat = b.toNat := by cases b <;> rfl

theorem toNat_flagByte_decide (p : Prop) [Decidable p] :
    (flagByte (decide p)).toNat = if p then 1 else 0 := by
  rw [toNat_flagByte]
  by_cases hp : p <;> simp [hp]

theorem toNat_shrOut (b : Byte) : (shrOut b).toNat = b.toNat % 2 := by
  rw [shrOut, toNat_flagByte, BitVec.getLsbD, Nat.toNat_testBit, Nat.pow_zero, Nat.div_one]

/-- The top bit of a byte is what is left of it above 7 bits. -/
theorem toNat_shlOut (b : Byte) : (shlOut b).toNat = b.toNat / 128 := by
  have hb := b.isLt
  rw [shlOut, toNat_flagByte, BitVec.getLsbD, Nat.toNat_testBit]
  omega

/-! ### The results as numbers -/

/-- The difference of two bytes wraps modulo 256 (R83). -/
theorem toNat_sub_byte (a b : Byte) : (a - b).toNat = (256 + a.toNat - b.toNat) % 256 := by
  have hb := b.isLt
  rw [BitVec.toNat_sub]
  omega

theorem toNat_ushiftRight_one (b : Byte) : (b >>> 1).toNat = b.toNat / 2 := by
  rw [BitVec.toNat_ushiftRight, Nat.shiftRight_one]

theorem toNat_shiftLeft_one (b : Byte) : (b <<< 1).toNat = b.toNat * 2 % 256 := by
  rw [BitVec.toNat_shiftLeft, Nat.shiftLeft_eq]

/-! ### The obligations -/

/-- Settles O34: neither immediate form is guarded, and each writes V[X] alone. -/
theorem immediatesLoadAndAdd : Obligations.ImmediatesLoadAndAdd := fun s x nn =>
  ⟨decodesTo_of_encode rfl (ofNat_fmtXI 0x6#4 x nn rfl), regEffect_of_setV rfl rfl,
    decodesTo_of_encode rfl (ofNat_fmtXI 0x7#4 x nn rfl),
    regEffect_of_setV rfl (BitVec.toNat_add (s.getV x) nn)⟩

/-- Settles O35: with admitted operands each of the four ends with V[X] written alone. -/
theorem movesAndLogicWriteNoFlag : Obligations.MovesAndLogicWriteNoFlag := by
  intro s x y hvf decodes
  exact ⟨decodesTo_of_encode rfl (ofNat_fmtXYN 0x8#4 x y 0x0#4 rfl) s.policy,
    decodesTo_of_encode rfl (ofNat_fmtXYN 0x8#4 x y 0x1#4 rfl) s.policy,
    decodesTo_of_encode rfl (ofNat_fmtXYN 0x8#4 x y 0x2#4 rfl) s.policy,
    decodesTo_of_encode rfl (ofNat_fmtXYN 0x8#4 x y 0x3#4 rfl) s.policy,
    regEffect_of_setV (aluGuard_of_not_vf hvf) rfl,
    regEffect_of_setV (aluGuard_of_not_vf hvf) (BitVec.toNat_or _ _),
    regEffect_of_setV (aluGuard_of_not_vf hvf) (BitVec.toNat_and _ _),
    regEffect_of_setV (aluGuard_of_not_vf hvf) (BitVec.toNat_xor _ _)⟩

/-- Settles O36: the carry-out is 1 exactly where the sum of the two bytes does not fit in a byte. -/
theorem addSetsCarry : Obligations.AddSetsCarry := fun s x y hvf =>
  ⟨decodesTo_of_encode rfl (ofNat_family8 x y 0x4#4) s.policy,
    flagEffect_of_setResultFlag (aluGuard_of_not_vf hvf) (BitVec.toNat_add _ _)
      (toNat_flagByte_decide _)⟩

/-- Settles O37: the two subtractions differ only in which operand is the minuend. -/
theorem subtractionsSetNotBorrow : Obligations.SubtractionsSetNotBorrow := fun s x y hvf =>
  ⟨decodesTo_of_encode rfl (ofNat_family8 x y 0x5#4) s.policy,
    decodesTo_of_encode rfl (ofNat_family8 x y 0x7#4) s.policy,
    flagEffect_of_setResultFlag (aluGuard_of_not_vf hvf) (toNat_sub_byte _ _)
      (toNat_flagByte_decide _),
    flagEffect_of_setResultFlag (aluGuard_of_not_vf hvf) (toNat_sub_byte _ _)
      (toNat_flagByte_decide _)⟩

/-- Settles O38: both shifts read one byte, and bit 0 leaves it to the right, bit 7 to the left. -/
theorem shiftsSetTheBitShiftedOut : Obligations.ShiftsSetTheBitShiftedOut := by
  intro s x y hvf src
  have hsrc : (s.shiftOperand x y).toNat = src := congrArg BitVec.toNat (s.shiftOperand_eq x y)
  rw [← hsrc]
  exact ⟨decodesTo_of_encode rfl (ofNat_family8 x y 0x6#4) s.policy,
    decodesTo_of_encode rfl (ofNat_family8 x y 0xE#4) s.policy,
    flagEffect_of_setResultFlag (aluGuard_of_shift hvf) (toNat_ushiftRight_one _) (toNat_shrOut _),
    flagEffect_of_setResultFlag (aluGuard_of_shift hvf) (toNat_shiftLeft_one _) (toNat_shlOut _)⟩

end Sys2Proof.Machine
end

section
/-! Families A, C and D: LD I, RND and DRW, and ADD I of family F (R97, R99, R100, R109). -/

namespace Sys2Proof.Machine

/-! ### LD I, ADD I and RND -/

/-- ADD I adds V[X] as a 16-bit word, so the sum wraps at 2^16 (R109). -/
theorem toNat_add_zeroExtend_byte (w : Word) (b : Byte) :
    (w + b.zeroExtend 16).toNat = (w.toNat + b.toNat) % 65536 := by
  rw [BitVec.toNat_add, BitVec.toNat_setWidth_of_le (by decide)]

/-- Settles O40: both write I alone, and VF is no exception. -/
theorem indexIsLoadedAndAdded : Obligations.IndexIsLoadedAndAdded := fun s nnn x =>
  ⟨decodesTo_of_encode rfl (ofNat_fmtA 0xA#4 nnn rfl),
    ⟨_, rfl, toNat_zeroExtend_addr nnn, fun _ => rfl, rfl⟩,
    decodesTo_of_encode rfl (ofNat_fmtXI 0xF#4 x 0x1E (by simp; omega)),
    ⟨_, rfl, toNat_add_zeroExtend_byte s.index (s.getV x), fun _ => rfl, rfl⟩⟩

/-- Settles O41: a byte that the mask leaves alone results where it is itself the random byte. -/
theorem rndIsAnyMaskedByte : Obligations.RndIsAnyMaskedByte := fun _ x nn =>
  ⟨decodesTo_of_encode rfl (ofNat_fmtXI 0xC#4 x nn rfl), regEffect_of_setV rfl rfl,
    fun b hb => ⟨b, regEffect_of_setV rfl (congrArg BitVec.toNat hb)⟩⟩

/-! ### The reads of DRW -/

/-- DRW with a read past the end of memory faults at the first address that is refused (R100, R102). -/
theorem faultEffect_drw {s : State} (x y : Reg) {n : Nibble} (hn : n ≠ 0)
    (hmem : s.sizes.memSize < s.base + n.toNat) :
    faultEffect (.drw x y n) (.outOfBoundsAccess .read) (some (max s.base s.sizes.memSize)) s := by
  have hpos : 0 < n.toNat := Nat.pos_of_ne_zero fun h => hn (BitVec.eq_of_toNat_eq h)
  have hcheck := firstFailing_read s.sizes s.base n.toNat
  rw [if_pos ⟨hpos, hmem⟩] at hcheck
  simp only [faultEffect, exec, execDrw, hcheck]
  rfl

/-- The state that DRW leaves where all its reads are in range (R100). -/
def State.afterDraw (s : State) (x y : Reg) (n : Nibble) : State :=
  let drawn := drawPixels (s.fb, false) (s.spriteAt x y n)
  ({ s with fb := drawn.1 }.setV VF (flagByte drawn.2)).completed true

/-- DRW whose reads are in range draws its sprite and completes (R100). -/
theorem exec_drw_of_fits {s : State} (x y : Reg) {n : Nibble}
    (hmem : n = 0 ∨ s.base + n.toNat ≤ s.sizes.memSize) :
    exec (.drw x y n) s = .next (s.afterDraw x y n) := by
  have hcheck : firstFailing (readCheck s.sizes) s.base n.toNat = none := by
    rw [firstFailing_read, if_neg]
    rintro ⟨hpos, hover⟩
    rcases hmem with rfl | hmem
    · exact absurd hpos (by decide)
    · omega
  simp only [exec, execDrw, hcheck]
  rfl

/-! ### What a completed DRW leaves -/

section
variable (s : State) (x y : Reg) (n : Nibble) (px py : Nat)

/-- One of the SetPixel calls of DRW meets a set pixel: one set before, or one called for twice. -/
def State.drawCollides : Prop :=
  ∃ px py, (spriteCovers x y n s px py ∧ s.pixel px py = true) ∨ 2 ≤ spriteCount x y n s px py

theorem mem_spriteAt : (px, py) ∈ s.spriteAt x y n ↔ spriteCovers x y n s px py := by
  rw [← List.count_pos_iff, State.count_spriteAt, spriteCount_pos]

theorem State.afterDraw_pixel : (s.afterDraw x y n).pixel px py =
    (s.pixel px py ^^ decide (spriteCount x y n s px py % 2 = 1)) := by
  rw [← State.count_spriteAt]
  exact pixelAt_drawPixels (s.spriteAt x y n) (s.fb, false) px py

/-- The number of a pixel's SetPixel calls says whether it is inverted. -/
theorem State.afterDraw_pixel_of_odd (h : spriteCount x y n s px py % 2 = 1) :
    (s.afterDraw x y n).pixel px py = !s.pixel px py := by
  rw [State.afterDraw_pixel, decide_eq_true h, Bool.xor_true]

theorem State.afterDraw_pixel_of_even (h : spriteCount x y n s px py % 2 = 0) :
    (s.afterDraw x y n).pixel px py = s.pixel px py := by
  rw [State.afterDraw_pixel, decide_eq_false (by omega), Bool.xor_false]

theorem State.afterDraw_getV_ne {r : Reg} (h : r ≠ VF) : (s.afterDraw x y n).getV r = s.getV r :=
  State.getV_setV_ne _ _ h

/-- The flag that the SetPixel calls of the sprite collect says whether one of them collides. -/
theorem drawPixels_spriteAt_collides : (drawPixels (s.fb, false) (s.spriteAt x y n)).2 = true ↔
    s.drawCollides x y n := by
  rw [drawPixels_collides]
  simp only [mem_spriteAt, State.count_spriteAt, Bool.false_eq_true, false_or]
  rfl

/-- VF is written after all pixels (R100). -/
theorem State.afterDraw_vf : (s.afterDraw x y n).getV VF =
    flagByte (drawPixels (s.fb, false) (s.spriteAt x y n)).2 :=
  State.getV_setV_same _ VF _

variable {s x y n}

theorem State.afterDraw_vf_of_collides (h : s.drawCollides x y n) : (s.afterDraw x y n).getV VF = 1 := by
  rw [State.afterDraw_vf, (drawPixels_spriteAt_collides s x y n).2 h]
  rfl

theorem State.afterDraw_vf_of_not_collides (h : ¬ s.drawCollides x y n) :
    (s.afterDraw x y n).getV VF = 0 := by
  rw [State.afterDraw_vf, Bool.eq_false_iff.2 (mt (drawPixels_spriteAt_collides s x y n).1 h)]
  rfl

theorem State.afterDraw_vf_eq_one_iff : (s.afterDraw x y n).getV VF = 1 ↔ s.drawCollides x y n := by
  refine ⟨fun h1 => ?_, afterDraw_vf_of_collides⟩
  by_contra hc
  rw [afterDraw_vf_of_not_collides hc] at h1
  exact absurd h1 (by decide)

/-- DRW whose reads are in range has the effect of R100 on a framebuffer of any size, one without pixels
included (log 14). -/
theorem drawEffect_of_fits (hmem : n = 0 ∨ s.base + n.toNat ≤ s.sizes.memSize) : drawEffect x y n s :=
  ⟨s.afterDraw x y n, exec_drw_of_fits x y hmem,
    fun px py => ⟨s.afterDraw_pixel_of_odd x y n px py, s.afterDraw_pixel_of_even x y n px py⟩,
    State.afterDraw_vf_of_collides, State.afterDraw_vf_of_not_collides,
    fun _ hr => s.afterDraw_getV_ne x y n hr, fun _ => rfl, rfl⟩

end

/-- Settles O42: the checks of the reads decide between the fault and the effect. -/
theorem drawTogglesOncePerSpriteBit : Obligations.DrawTogglesOncePerSpriteBit := fun _ x y n =>
  ⟨decodesTo_of_encode rfl (ofNat_fmtXYN 0xD#4 x y n rfl), faultEffect_drw x y,
    fun _ _ => drawEffect_of_fits⟩

/-- Settles O57: the effect asks nothing of FB_W and FB_H. -/
theorem drawOnAFramebufferWithoutPixels : Obligations.DrawOnAFramebufferWithoutPixels :=
  fun _ _ _ _ _ => drawEffect_of_fits

/-! ### A framebuffer no smaller than the sprite -/

/-- Two coordinates less than the modulus apart wrap to one only if they are the same. -/
theorem add_mod_inj {a b c m : Nat} (hb : b < m) (hc : c < m) (h : (a + b) % m = (a + c) % m) : b = c :=
  (Nat.ModEq.add_left_cancel' a h).eq_of_lt_of_lt hb hc

theorem nodup_rowPixels {z : Sizes} (hw : 8 ≤ z.fbW) (x0 y : Nat) (row : Byte) :
    (rowPixels z x0 y row).Nodup := by
  refine List.Nodup.map_on (fun c hc c' hc' h => ?_) (List.nodup_range.filter _)
  have lt_of_mem {c : Nat} (hc : c ∈ (List.range 8).filter fun c => row.getLsbD (7 - c)) : c < z.fbW :=
    (List.mem_range.1 (List.mem_filter.1 hc).1).trans_le hw
  exact add_mod_inj (lt_of_mem hc) (lt_of_mem hc') (congrArg Prod.fst h)

/-- A sprite's pixels stand in the wrapped lines of its rows. -/
theorem snd_of_mem_spritePixels {z : Sizes} {x0 y0 : Nat} {rows : List Byte} {p : Nat × Nat}
    (h : p ∈ spritePixels z x0 y0 rows) : ∃ r < rows.length, p.2 = (y0 + r) % z.fbH := by
  induction rows generalizing y0 with
  | nil => cases h
  | cons row rows ih =>
    rcases List.mem_append.1 h with h | h
    · obtain ⟨c, -, rfl⟩ := List.mem_map.1 h
      exact ⟨0, Nat.zero_lt_succ _, rfl⟩
    · obtain ⟨r, hr, hp⟩ := ih h
      exact ⟨r + 1, Nat.succ_lt_succ hr, by rw [hp, Nat.add_right_comm, Nat.add_assoc]⟩

/-- No pixel is called for twice where neither the columns nor the rows of a sprite wrap onto each other
(R100). -/
theorem nodup_spritePixels {z : Sizes} (hw : 8 ≤ z.fbW) (x0 y0 : Nat) {rows : List Byte}
    (hh : rows.length ≤ z.fbH) : (spritePixels z x0 y0 rows).Nodup := by
  induction rows generalizing y0 with
  | nil => exact List.nodup_nil
  | cons row rows ih =>
    rw [List.length_cons] at hh
    refine (nodup_rowPixels hw x0 y0 row).append (ih (y0 + 1) (by omega)) fun p hp hp' => ?_
    obtain ⟨c, -, rfl⟩ := List.mem_map.1 hp
    obtain ⟨r, hr, hy⟩ := snd_of_mem_spritePixels hp'
    rw [Nat.add_right_comm, Nat.add_assoc] at hy
    have hrow : 0 = r + 1 := add_mod_inj (a := y0) (by omega) (by omega) hy
    omega

section
variable {s : State} {x y : Reg} {n : Nibble}

theorem spriteCount_le_one (hw : 8 ≤ s.sizes.fbW) (hh : n.toNat ≤ s.sizes.fbH) (px py : Nat) :
    spriteCount x y n s px py ≤ 1 := by
  rw [← State.count_spriteAt]
  exact List.nodup_iff_count_le_one.1
    (nodup_spritePixels hw _ _ (by rwa [State.loadBytes_length])) (px, py)

theorem spriteCount_of_covers (hw : 8 ≤ s.sizes.fbW) (hh : n.toNat ≤ s.sizes.fbH) {px py : Nat}
    (h : spriteCovers x y n s px py) : spriteCount x y n s px py = 1 :=
  le_antisymm (spriteCount_le_one hw hh px py) ((spriteCount_pos s x y n px py).2 h)

theorem spriteCount_of_not_covers {px py : Nat} (h : ¬ spriteCovers x y n s px py) :
    spriteCount x y n s px py = 0 :=
  Nat.eq_zero_of_not_pos (mt (spriteCount_pos s x y n px py).1 h)

theorem State.afterDraw_pixel_of_covers (hw : 8 ≤ s.sizes.fbW) (hh : n.toNat ≤ s.sizes.fbH) {px py : Nat}
    (h : spriteCovers x y n s px py) : (s.afterDraw x y n).pixel px py = !s.pixel px py :=
  s.afterDraw_pixel_of_odd x y n px py (by rw [spriteCount_of_covers hw hh h])

theorem State.afterDraw_pixel_of_not_covers {px py : Nat} (h : ¬ spriteCovers x y n s px py) :
    (s.afterDraw x y n).pixel px py = s.pixel px py :=
  s.afterDraw_pixel_of_even x y n px py (by rw [spriteCount_of_not_covers h])

/-- Without a pixel called for twice, only a pixel set before collides. -/
theorem State.drawCollides_iff (hw : 8 ≤ s.sizes.fbW) (hh : n.toNat ≤ s.sizes.fbH) :
    s.drawCollides x y n ↔ ∃ px py, spriteCovers x y n s px py ∧ s.pixel px py = true := by
  have once (px py : Nat) : ¬ 2 ≤ spriteCount x y n s px py :=
    Nat.not_le_of_lt (Nat.lt_succ_of_le (spriteCount_le_one hw hh px py))
  simp only [State.drawCollides, once, or_false]

end

/-- Settles O43: every covered pixel has exactly one 1-bit. -/
theorem drawInvertsCoveredPixels : Obligations.DrawInvertsCoveredPixels := by
  intro s x y n hw hh hmem
  refine ⟨s.afterDraw x y n, exec_drw_of_fits x y hmem, fun px py => ⟨spriteCount_le_one hw hh px py,
    State.afterDraw_pixel_of_covers hw hh, State.afterDraw_pixel_of_not_covers⟩, ?_, ?_,
    fun _ hr => s.afterDraw_getV_ne x y n hr, fun _ => rfl, rfl⟩
  · exact fun h => State.afterDraw_vf_of_collides ((State.drawCollides_iff hw hh).2 h)
  · exact fun h => State.afterDraw_vf_of_not_collides (mt (State.drawCollides_iff hw hh).1 h)

/-! ### Drawing twice -/

/-- A byte other than 0 has a 1-bit in one of its columns. -/
theorem byte_ne_zero_iff (b : Byte) : b ≠ 0 ↔ ∃ c < 8, b.getLsbD (7 - c) = true := by
  refine ⟨fun h => ?_, ?_⟩
  · by_contra hc
    push Not at hc
    refine h (BitVec.eq_of_getLsbD_eq fun i hi => ?_)
    have hbit := hc (7 - i) (by omega)
    rw [Nat.sub_sub_self (Nat.le_of_lt_succ hi)] at hbit
    simpa using hbit
  · rintro ⟨c, -, hbit⟩ rfl
    simp at hbit

/-- A sprite covers some pixel exactly where it has a 1-bit, since its coordinates wrap. -/
theorem exists_spriteCovers_iff (s : State) (x y : Reg) (n : Nibble) :
    (∃ px py, spriteCovers x y n s px py) ↔ ∃ r < n.toNat, s.byteAt (s.base + r) ≠ 0 := by
  simp only [byte_ne_zero_iff]
  constructor
  · rintro ⟨px, py, r, hr, c, hc, hbit, -⟩
    exact ⟨r, hr, c, hc, hbit⟩
  · rintro ⟨r, hr, c, hc, hbit⟩
    exact ⟨_, _, r, hr, c, hc, hbit, rfl, rfl⟩

section
variable {s : State} {x y : Reg} (hx : x ≠ VF) (hy : y ≠ VF) (n : Nibble)
include hx hy

/-- DRW changes nothing that its sprite is read from where neither coordinate register is VF. -/
theorem State.spriteAt_afterDraw : (s.afterDraw x y n).spriteAt x y n = s.spriteAt x y n := by
  rw [State.spriteAt, s.afterDraw_getV_ne x y n hx, s.afterDraw_getV_ne x y n hy]
  rfl

theorem spriteCount_afterDraw (px py : Nat) :
    spriteCount x y n (s.afterDraw x y n) px py = spriteCount x y n s px py := by
  rw [← State.count_spriteAt, State.spriteAt_afterDraw hx hy, State.count_spriteAt]

theorem spriteCovers_afterDraw (px py : Nat) :
    spriteCovers x y n (s.afterDraw x y n) px py ↔ spriteCovers x y n s px py := by
  rw [← mem_spriteAt, State.spriteAt_afterDraw hx hy, mem_spriteAt]

/-- Each pixel is inverted as often by the second draw as by the first. -/
theorem State.afterDraw_afterDraw_pixel (px py : Nat) :
    ((s.afterDraw x y n).afterDraw x y n).pixel px py = s.pixel px py := by
  rw [State.afterDraw_pixel, State.afterDraw_pixel, spriteCount_afterDraw hx hy, Bool.xor_assoc,
    Bool.xor_self, Bool.xor_false]

end

theorem State.not_drawCollides_of_blank {s : State} (x y : Reg) {n : Nibble} (hblank : s.blank)
    (hw : 8 ≤ s.sizes.fbW) (hh : n.toNat ≤ s.sizes.fbH) : ¬ s.drawCollides x y n := by
  rw [State.drawCollides_iff hw hh]
  rintro ⟨px, py, -, hset⟩
  exact absurd ((hblank px py).symm.trans hset) Bool.false_ne_true

/-- On a blank framebuffer the first draw sets every covered pixel, so the second collides with each. -/
theorem State.afterDraw_drawCollides_of_blank {s : State} {x y : Reg} {n : Nibble} (hx : x ≠ VF)
    (hy : y ≠ VF) (hblank : s.blank) (hw : 8 ≤ s.sizes.fbW) (hh : n.toNat ≤ s.sizes.fbH) :
    (s.afterDraw x y n).drawCollides x y n ↔ ∃ px py, spriteCovers x y n s px py := by
  have hset {px py : Nat} (h : spriteCovers x y n s px py) : (s.afterDraw x y n).pixel px py = true := by
    rw [State.afterDraw_pixel_of_covers hw hh h, hblank px py, Bool.not_false]
  rw [State.drawCollides_iff (s := s.afterDraw x y n) hw hh]
  simp only [spriteCovers_afterDraw hx hy]
  exact ⟨fun ⟨px, py, h, _⟩ => ⟨px, py, h⟩, fun ⟨px, py, h⟩ => ⟨px, py, h, hset h⟩⟩

/-- Settles O44: the two draws have the same sprite, and canonical framebuffers with the same pixels are
equal. -/
theorem drawingTwiceRestoresTheFramebuffer : Obligations.DrawingTwiceRestoresTheFramebuffer := by
  intro s t u x y n hx hy hmem ht hu
  obtain rfl : s.afterDraw x y n = t := Host.Outcome.next.inj ((exec_drw_of_fits x y hmem).symm.trans ht)
  obtain rfl : (s.afterDraw x y n).afterDraw x y n = u :=
    Host.Outcome.next.inj ((exec_drw_of_fits (s := s.afterDraw x y n) x y hmem).symm.trans hu)
  have hpixel := State.afterDraw_afterDraw_pixel (s := s) hx hy n
  refine ⟨hpixel, fun hw hh hwf => ?_, fun hblank hw hh => ⟨?_, ?_⟩⟩
  · have hwf₁ : (s.afterDraw x y n).fbWf := exec_keeps_fbWf hw hh hwf ht
    have hwf₂ := exec_keeps_fbWf (s := s.afterDraw x y n) hw hh hwf₁ hu
    exact framebuffer_ext hwf₂.1 hwf.1 hpixel
  · exact State.afterDraw_vf_of_not_collides (State.not_drawCollides_of_blank x y hblank hw hh)
  · rw [State.afterDraw_vf_eq_one_iff, State.afterDraw_drawCollides_of_blank hx hy hblank hw hh,
      exists_spriteCovers_iff]

end Sys2Proof.Machine
end

section
/-! Families E and F: the key tests, the key wait, the timers, the glyph address, and the stores and loads
at I (R101 to R108, R110 to R113). -/

namespace Sys2Proof.Machine

/-! ### The shared forms -/

/-- The word of a family-E or family-F instruction, by its low byte. -/
theorem ofNat_fmtXS (f : Nibble) (x : Reg) (nn : Byte) :
    BitVec.ofNat 16 (0x1000 * f.toNat + nn.toNat + 0x100 * x.val) = fmtXI f x nn :=
  ofNat_fmtXI f x nn (Nat.add_right_comm ..)

/-- An instruction that ends by raising a fault has the effect of that fault (R115). -/
theorem faultEffect_of_raise {i : Instr} {kind : FaultKind} {info : Option Nat} {s : State}
    (h : exec i s = raise (encode i) kind info s) : faultEffect i kind info s := h

/-! ### SKP and SKNP -/

section
variable {s : State} {x : Reg}

theorem State.keyIndex_of_le (h : (s.getV x).toNat ≤ 15) : s.keyIndex x = some (s.getV x).toNat :=
  if_pos (Nat.lt_succ_of_le h)

theorem State.keyIndex_of_mask (h : 15 < (s.getV x).toNat) (hp : s.policy.keyIndexRange = .mask) :
    s.keyIndex x = some ((s.getV x).toNat % 16) := by
  simp only [State.keyIndex, if_neg (Nat.not_lt.2 h), hp]

theorem State.keyIndex_of_fault (h : 15 < (s.getV x).toNat) (hp : s.policy.keyIndexRange = .fault) :
    s.keyIndex x = none := by
  simp only [State.keyIndex, if_neg (Nat.not_lt.2 h), hp]

/-- With a key index, the two tests skip on the key's state and on its negation (R103, R104). -/
theorem skipEffect_of_keyIndex {k : Nat} (h : s.keyIndex x = some k) :
    skipEffect (.skp x) (s.inputs.keys.getLsbD k = true) s ∧
      skipEffect (.sknp x) (¬ s.inputs.keys.getLsbD k = true) s := by
  have hskp : exec (.skp x) s = finish false (s.skipIf (s.isKeyDown k)) := by
    simp only [exec, execSkp, h]
  have hsknp : exec (.sknp x) s = finish false (s.skipIf (!s.isKeyDown k)) := by
    simp only [exec, execSknp, h]
  exact ⟨skipEffect_of_skipIf Iff.rfl hskp, skipEffect_of_skipIf (by simp [State.isKeyDown]) hsknp⟩

/-- Without one, both raise the KEY_INDEX fault before they query a key (R101). -/
theorem faultEffect_of_keyIndex (h : s.keyIndex x = none) :
    faultEffect (.skp x) (.outOfBoundsAccess .keyIndex) (some (s.getV x).toNat) s ∧
      faultEffect (.sknp x) (.outOfBoundsAccess .keyIndex) (some (s.getV x).toNat) s :=
  ⟨faultEffect_of_raise (by simp only [exec, execSkp, h]),
    faultEffect_of_raise (by simp only [exec, execSknp, h])⟩

end

/-- Settles O32: the key index decides between the skip and the fault. -/
theorem keyTestsSkipOrFault : Obligations.KeyTestsSkipOrFault := fun _ x =>
  ⟨decodesTo_of_encode rfl (ofNat_fmtXS 0xE#4 x 0x9E#8),
    decodesTo_of_encode rfl (ofNat_fmtXS 0xE#4 x 0xA1#8),
    fun hle => skipEffect_of_keyIndex (State.keyIndex_of_le hle),
    fun hgt hp => skipEffect_of_keyIndex (State.keyIndex_of_mask hgt hp),
    fun hgt hp => faultEffect_of_keyIndex (State.keyIndex_of_fault hgt hp)⟩

/-! ### The timers -/

/-- Settles O45: each of the three moves one byte and completes. -/
theorem timersAreReadAndSet : Obligations.TimersAreReadAndSet := fun _ x =>
  ⟨decodesTo_of_encode rfl (ofNat_fmtXS 0xF#4 x 0x07#8),
    decodesTo_of_encode rfl (ofNat_fmtXS 0xF#4 x 0x15#8),
    decodesTo_of_encode rfl (ofNat_fmtXS 0xF#4 x 0x18#8), regEffect_of_setV rfl rfl,
    ⟨_, rfl, rfl, fun _ => rfl, rfl⟩, ⟨_, rfl, rfl, fun _ => rfl, rfl⟩⟩

/-! ### The key wait -/

section
variable {s : State} {x : Reg} {k : Nat}

/-- FX0A with no key to take stalls (R69, R108). -/
theorem exec_ldVxK_of_none (h : s.waitedKey = none) : exec (.ldVxK x) s = .next s.stalled := by
  simp only [exec, execLdVxK, State.awaitKey, h]

/-- FX0A with a key to take stores its number, which fits in a byte (R108). -/
theorem regEffect_of_waitedKey (h : s.waitedKey = some k) : regEffect (.ldVxK x) x k s := by
  have hk : k < 16 := (State.waitedKey_down h).1
  have hexec : exec (.ldVxK x) s = finish false (s.setV x (BitVec.ofNat 8 k)) := by
    simp only [exec, execLdVxK, State.awaitKey, h]; rfl
  exact regEffect_of_setV hexec (Nat.mod_eq_of_lt (by omega))

/-- Under LOWEST no key below the one taken is down (R108). -/
theorem State.waitedKey_lowest (h : s.waitedKey = some k) (hp : s.policy.keywaitPick = .lowest) {j : Nat}
    (hj : j < k) : s.isKeyDown j = false := by
  simp only [State.waitedKey, hp, State.lowestKey] at h
  obtain ⟨-, -, hbelow⟩ := List.find?_range_eq_some.1 h
  simpa using hbelow j hj

/-- Under ANY the key of the free choice is the one taken, if it is down (R108). -/
theorem State.waitedKey_any (hp : s.policy.keywaitPick = .any)
    (h : s.isKeyDown s.inputs.keyPick.val = true) : s.waitedKey = some s.inputs.keyPick.val := by
  simp only [State.waitedKey, hp, if_pos h]

end

/-- Settles O46: whether a key is down decides whether there is a key to take. -/
theorem keyWaitStallsOrStoresAKey : Obligations.KeyWaitStallsOrStoresAKey := by
  intro s x down
  refine ⟨decodesTo_of_encode rfl (ofNat_fmtXS 0xF#4 x 0x0A#8), fun hup => ?_, fun ⟨k, hk, hdown⟩ => ?_,
    fun hp k hdown => ?_⟩
  · exact exec_ldVxK_of_none (State.waitedKey_none.2 fun k hk => Bool.eq_false_iff.2 (hup k hk))
  · cases hkey : s.waitedKey with
    | none => exact absurd hdown (Bool.eq_false_iff.1 (State.waitedKey_none.1 hkey k hk))
    | some k =>
      obtain ⟨hk, hdown⟩ := State.waitedKey_down hkey
      exact ⟨k, hk, hdown, regEffect_of_waitedKey hkey, fun hp j hj =>
        Bool.eq_false_iff.1 (State.waitedKey_lowest hkey hp hj)⟩
  · exact regEffect_of_waitedKey
      (State.waitedKey_any (s := { s with inputs := { s.inputs with keyPick := k } }) hp hdown)

/-! ### The glyph address -/

section
variable {s : State} {x : Reg}

theorem State.fontDigit_of_le (h : (s.getV x).toNat ≤ 15) : s.fontDigit x = some (s.getV x).toNat :=
  if_pos (Nat.lt_succ_of_le h)

theorem State.fontDigit_of_mask (h : 15 < (s.getV x).toNat) (hp : s.policy.fontDigitRange = .mask) :
    s.fontDigit x = some ((s.getV x).toNat % 16) := by
  simp only [State.fontDigit, if_neg (Nat.not_lt.2 h), hp]

theorem State.fontDigit_of_fault (h : 15 < (s.getV x).toNat) (hp : s.policy.fontDigitRange = .fault) :
    s.fontDigit x = none := by
  simp only [State.fontDigit, if_neg (Nat.not_lt.2 h), hp]

/-- FX29 with a digit writes its glyph's address to I, exactly where that fits in 16 bits (R110). -/
theorem indexEffect_of_fontDigit {d : Nat} (h : s.fontDigit x = some d)
    (hfits : s.sizes.fontBase + s.sizes.glyphBytes * d < 65536) :
    indexEffect (.ldFVx x) (s.sizes.fontBase + s.sizes.glyphBytes * d) s := by
  have hexec : exec (.ldFVx x) s =
      finish false { s with index := BitVec.ofNat 16 (s.sizes.fontBase + s.sizes.glyphBytes * d) } := by
    simp only [exec, execLdFVx, h]
  exact ⟨_, hexec, Nat.mod_eq_of_lt hfits, fun _ => rfl, rfl⟩

/-- Without one it raises the FONT_DIGIT fault (R110). -/
theorem faultEffect_of_fontDigit (h : s.fontDigit x = none) :
    faultEffect (.ldFVx x) (.outOfBoundsAccess .fontDigit) (some (s.getV x).toNat) s :=
  faultEffect_of_raise (by simp only [exec, execLdFVx, h])

end

/-- Settles O47: the glyph digit decides between the address and the fault. -/
theorem glyphAddressOrFault : Obligations.GlyphAddressOrFault := fun _ x =>
  ⟨decodesTo_of_encode rfl (ofNat_fmtXS 0xF#4 x 0x29#8),
    fun hle => indexEffect_of_fontDigit (State.fontDigit_of_le hle),
    fun hgt hp => indexEffect_of_fontDigit (State.fontDigit_of_mask hgt hp),
    fun hgt hp => faultEffect_of_fontDigit (State.fontDigit_of_fault hgt hp)⟩

/-! ### The checks of the stores -/

/-- The write checks of n addresses pass where a program may write them all. -/
theorem firstFailing_write_none {s : State} {base n : Nat} (h : ∀ k < n, s.writable (base + k)) :
    firstFailing (writeCheck s.sizes s.policy) base n = none :=
  firstFailing_none.2 fun k hk => writeCheck_none.2 (h k hk)

/-- A store whose write checks refuse an address takes the fault of the lowest such address (R102). -/
theorem faultEffect_of_not_writable {i : Instr} {s : State} {n k : Nat} (hk : k < n)
    (hexec : ∀ e, firstFailing (writeCheck s.sizes s.policy) s.base n = some e →
      exec i s = raiseAt (encode i) e s)
    (before : ∀ j < k, s.writable (s.base + j)) (h : ¬ s.writable (s.base + k)) :
    faultEffect i (s.writeFault (s.base + k)) (some (s.base + k)) s := by
  obtain ⟨sub, hcheck, hfault⟩ := writeCheck_some h
  rw [hfault]
  exact faultEffect_of_raise
    (hexec _ (firstFailing_at hk (fun j hj => writeCheck_none.2 (before j hj)) hcheck))

/-! ### FX33 -/

/-- FX33 at writable addresses stores the three digits and completes (R111). -/
theorem exec_ldBVx_of_writable {s : State} (x : Reg) (h : ∀ k < 3, s.writable (s.base + k)) :
    exec (.ldBVx x) s = .next ((s.storeBytes s.base (bcdDigits (s.getV x))).completed false) := by
  simp only [exec, execLdBVx, firstFailing_write_none h, finish_eq]

/-- Settles O48: the digits are below 256, so each byte holds one. -/
theorem bcdDigitsAreStored : Obligations.BcdDigitsAreStored := by
  intro s x
  refine ⟨decodesTo_of_encode rfl (ofNat_fmtXS 0xF#4 x 0x33#8), fun hwritable => ?_, fun k hk =>
    faultEffect_of_not_writable hk fun e he => by simp only [exec, execLdBVx, he]⟩
  have hv := (s.getV x).isLt
  refine ⟨_, exec_ldBVx_of_writable x hwritable, ?_, ?_, ?_,
    s.sameBytesOutside_storeBytes s.base (bcdDigits (s.getV x)), ?_⟩
  · simp [State.byteAt_storeBytes_bcdDigits]; omega
  · simp [State.byteAt_storeBytes_bcdDigits]; omega
  · simp [State.byteAt_storeBytes_bcdDigits]; omega
  · rw [State.storeBytes_eq]; rfl

/-! ### I after FX55 and FX65 -/

/-- The increment writes I alone. -/
theorem State.exists_bumpIndex_eq (s : State) (x : Reg) :
    ∃ i, s.bumpIndex x = { s with index := i } := by
  unfold State.bumpIndex; split <;> exact ⟨_, rfl⟩

/-- Without the increment I is kept (R112, R113). -/
theorem State.bumpIndex_index_of_none {s : State} {x : Reg} (h : s.policy.ldstIncrementI = .none) :
    (s.bumpIndex x).index = s.index := by
  simp only [State.bumpIndex, h]

/-- With it I wraps at 2^16 (R112, R113). -/
theorem State.bumpIndex_index_of_xPlus1 {s : State} {x : Reg} (h : s.policy.ldstIncrementI = .xPlus1) :
    (s.bumpIndex x).index.toNat = (s.index.toNat + x.val + 1) % 65536 := by
  simp [State.bumpIndex, h, Nat.add_assoc]

/-! ### FX55 -/

/-- FX55 at writable addresses stores V0..VX, moves I as the policy says, and completes (R112). -/
theorem exec_ldMemVx_of_writable {s : State} {x : Reg}
    (h : ∀ k < x.val + 1, s.writable (s.base + k)) :
    exec (.ldMemVx x) s =
      .next (((s.storeBytes s.base (s.lowRegs x)).bumpIndex x).completed false) := by
  simp only [exec, execLdMemVx, firstFailing_write_none h, finish_eq]

/-- Settles O49: the stores come first, and the increment changes no byte. -/
theorem registersAreDumped : Obligations.RegistersAreDumped := by
  intro s x
  refine ⟨decodesTo_of_encode rfl (ofNat_fmtXS 0xF#4 x 0x55#8), fun hwritable => ?_, fun k hk =>
    faultEffect_of_not_writable hk fun e he => by simp only [exec, execLdMemVx, he]⟩
  have hbytes (k : Nat) : (((s.storeBytes s.base (s.lowRegs x)).bumpIndex x).completed false).byteAt k =
      if s.base ≤ k ∧ k ≤ s.base + x.val then s.getV (Fin.ofNat 16 (k - s.base)) else s.byteAt k := by
    rw [State.completed_byteAt, State.bumpIndex_byteAt, State.byteAt_storeBytes_lowRegs]
  refine ⟨_, exec_ldMemVx_of_writable hwritable, fun r hr => ?_, fun a ha => ?_, fun hp => ?_,
    fun hp => ?_, ?_⟩
  · have hreg : r.val ≤ x.val := hr
    rw [hbytes, if_pos (by omega), Nat.add_sub_cancel_left, Fin.ofNat_val_eq_self]
  · rw [hbytes, if_neg (by omega)]
  · rw [State.completed_index, State.bumpIndex_index_of_none (by simpa), State.storeBytes_index]
  · rw [State.completed_index, State.bumpIndex_index_of_xPlus1 (by simpa), State.storeBytes_index]
  · obtain ⟨i, hi⟩ := (s.storeBytes s.base (s.lowRegs x)).exists_bumpIndex_eq x
    rw [hi, State.storeBytes_eq]; rfl

/-! ### FX65 -/

/-- The load writes V registers alone. -/
theorem State.exists_loadLowRegs_eq (s : State) (x : Reg) (a : Nat) :
    ∃ v, s.loadLowRegs x a = { s with v := v } := ⟨_, rfl⟩

@[simp] theorem State.loadLowRegs_byteAt (s : State) (x : Reg) (a k : Nat) :
    (s.loadLowRegs x a).byteAt k = s.byteAt k :=
  State.byteAt_congr (s.loadLowRegs_mem x a) (s.loadLowRegs_sizes x a) (s.loadLowRegs_policy x a) k

/-- FX65 with its reads in range loads V0..VX, moves I as the policy says, and completes (R113). -/
theorem exec_ldVxMem_of_fits {s : State} {x : Reg} (h : s.base + (x.val + 1) ≤ s.sizes.memSize) :
    exec (.ldVxMem x) s = .next (((s.loadLowRegs x s.base).bumpIndex x).completed false) := by
  simp only [exec, execLdVxMem, firstFailing_read, if_neg (not_and_of_not_right _ h.not_gt), finish_eq]

/-- FX65 with a read past the end of memory faults at the first address that is refused (R102, R113). -/
theorem faultEffect_ldVxMem {s : State} {x : Reg} (h : s.sizes.memSize < s.base + (x.val + 1)) :
    faultEffect (.ldVxMem x) (.outOfBoundsAccess .read) (some (max s.base s.sizes.memSize)) s := by
  apply faultEffect_of_raise
  simp only [exec, execLdVxMem, firstFailing_read, if_pos (And.intro x.val.succ_pos h)]
  rfl

/-- Settles O50: every byte is read before a register is written, and the increment changes no register. -/
theorem registersAreLoaded : Obligations.RegistersAreLoaded := by
  intro s x
  refine ⟨decodesTo_of_encode rfl (ofNat_fmtXS 0xF#4 x 0x65#8), fun hfits => ?_, faultEffect_ldVxMem⟩
  have hregs (r : Reg) : (((s.loadLowRegs x s.base).bumpIndex x).completed false).getV r =
      if r ≤ x then s.byteAt (s.base + r.val) else s.getV r := by
    rw [← State.getV_loadLowRegs]
    exact State.getV_congr (State.bumpIndex_v ..) r
  refine ⟨_, exec_ldVxMem_of_fits hfits, fun r hr => ?_, fun r hr => ?_, fun a => ?_, fun hp => ?_,
    fun hp => ?_, ?_⟩
  · rw [hregs, if_pos hr]
  · rw [hregs, if_neg hr]
  · rw [State.completed_byteAt, State.bumpIndex_byteAt, State.loadLowRegs_byteAt]
  · rw [State.completed_index, State.bumpIndex_index_of_none (by simpa), State.loadLowRegs_index]
  · rw [State.completed_index, State.bumpIndex_index_of_xPlus1 (by simpa), State.loadLowRegs_index]
  · obtain ⟨v, hv⟩ := s.exists_loadLowRegs_eq x s.base
    obtain ⟨i, hi⟩ := (s.loadLowRegs x s.base).exists_bumpIndex_eq x
    rw [hi, hv]; rfl

end Sys2Proof.Machine
end

section
/-! Faults and the halted core (R24, R33, R101, R102, R110, R114 to R116): which instruction may raise which
fault, what a fault leaves, and what the host's operations do to the halt record. -/

namespace Sys2Proof.Machine

/-! ### Which fault an end of an instruction is -/

section Ends

variable {i : Instr} {s u : State} {r : FaultRecord} {x y : Reg}

/-- A completion is no fault: the step returned Done (R68). -/
theorem finish_ne_takeFault {redraw : Bool} : finish redraw u ≠ .next (s.takeFault r) := fun h => by
  have hresult : (u.completed redraw).result = (s.takeFault r).result :=
    congrArg State.result (Host.Outcome.next.inj h)
  cases hresult

/-- FX0A stalls or completes, so it never faults (R69, R108). -/
theorem State.awaitKey_ne_takeFault : s.awaitKey x ≠ s.takeFault r := fun h => by
  have hresult : (s.awaitKey x).result = some (.fault r) := congrArg State.result h
  unfold State.awaitKey at hresult
  split at hresult <;> cases hresult

theorem mayRaise_of_raise {p : Policy} {op : Word} {kind : FaultKind} {info : Option Nat}
    (h : raise op kind info s = .next (s.takeFault r)) (hkind : mayRaise p kind i) :
    mayRaise p r.kind i := by
  have hrecord : some _ = some r := congrArg State.fault (Host.Outcome.next.inj h)
  cases hrecord
  exact hkind

/-- A family-8 instruction raises OutOfBoundsAccess(REGISTER), and only under VF_ALU_OPERAND = FAULT (R24). -/
theorem mayRaise_of_guard {op : Word} {readsY : Bool}
    (h : aluGuard op readsY x y u s = .next (s.takeFault r))
    (hkind : s.policy.vfAluOperand = .fault → mayRaise s.policy (.outOfBoundsAccess .register) i) :
    mayRaise s.policy r.kind i := by
  unfold aluGuard at h
  split at h
  · rename_i hrefused
    refine mayRaise_of_raise h (hkind ?_)
    unfold vfOperandRefused at hrefused
    exact of_decide_eq_true (Bool.and_eq_true_iff.1 hrefused).1
  · exact absurd h finish_ne_takeFault

/-- A key index is refused only under KEY_INDEX_RANGE = FAULT (R101). -/
theorem State.keyIndexRange_of_keyIndex_none (h : s.keyIndex x = none) :
    s.policy.keyIndexRange = .fault := by
  cases hp : s.policy.keyIndexRange with
  | fault => rfl
  | mask => simp [State.keyIndex, hp, ite_eq_iff] at h

/-- A digit is refused only under FONT_DIGIT_RANGE = FAULT (R110). -/
theorem State.fontDigitRange_of_fontDigit_none (h : s.fontDigit x = none) :
    s.policy.fontDigitRange = .fault := by
  cases hp : s.policy.fontDigitRange with
  | fault => rfl
  | mask => simp [State.fontDigit, hp, ite_eq_iff] at h

/-- A refused read raises OutOfBoundsAccess(READ) (R40, R102). -/
theorem mayRaise_of_read {p : Policy} {base n : Nat} {e : OobSubkind × Nat}
    (h : firstFailing (readCheck s.sizes) base n = some e)
    (hread : mayRaise p (.outOfBoundsAccess .read) i) : mayRaise p (.outOfBoundsAccess e.1) i := by
  rwa [readCheck_sub (firstFailing_some h)]

/-- A refused write raises OutOfBoundsAccess(WRITE), or OutOfBoundsAccess(FONT_WRITE) where the glyph table
is protected (R41, R102): the faults of FX33 and FX55. -/
theorem mayRaise_of_write {p : Policy} {base n : Nat} {e : OobSubkind × Nat}
    (h : firstFailing (writeCheck s.sizes p) base n = some e)
    (hi : (∃ x, i = .ldBVx x) ∨ ∃ x, i = .ldMemVx x) : mayRaise p (.outOfBoundsAccess e.1) i := by
  obtain hsub | ⟨hsub, hprotected⟩ := writeCheck_sub (firstFailing_some h)
  · rw [hsub]; exact hi
  · rw [hsub]; exact ⟨hprotected, hi⟩

end Ends

/-- An instruction that takes a fault takes one that the table of R114 names for it. -/
theorem mayRaise_of_exec_takeFault {i : Instr} {s : State} {r : FaultRecord}
    (h : exec i s = .next (s.takeFault r)) : mayRaise s.policy r.kind i := by
  cases i
  case ret =>
    simp only [exec, execRet] at h
    split at h
    · exact mayRaise_of_raise h rfl
    · exact absurd h finish_ne_takeFault
  case call nnn =>
    simp only [exec, execCall] at h
    split at h
    · exact mayRaise_of_raise h ⟨nnn, rfl⟩
    · exact absurd h finish_ne_takeFault
  case ldReg x y => exact mayRaise_of_guard h fun hp => ⟨hp, x, y, by simp⟩
  case orReg x y => exact mayRaise_of_guard h fun hp => ⟨hp, x, y, by simp⟩
  case andReg x y => exact mayRaise_of_guard h fun hp => ⟨hp, x, y, by simp⟩
  case xorReg x y => exact mayRaise_of_guard h fun hp => ⟨hp, x, y, by simp⟩
  case addReg x y => exact mayRaise_of_guard h fun hp => ⟨hp, x, y, by simp⟩
  case sub x y => exact mayRaise_of_guard h fun hp => ⟨hp, x, y, by simp⟩
  case shr x y => exact mayRaise_of_guard h fun hp => ⟨hp, x, y, by simp⟩
  case subn x y => exact mayRaise_of_guard h fun hp => ⟨hp, x, y, by simp⟩
  case shl x y => exact mayRaise_of_guard h fun hp => ⟨hp, x, y, by simp⟩
  case drw x y n =>
    simp only [exec, execDrw] at h
    split at h
    · rename_i hfail
      exact mayRaise_of_raise h (mayRaise_of_read hfail (.inl ⟨x, y, n, rfl⟩))
    · exact absurd h finish_ne_takeFault
  case skp x =>
    simp only [exec, execSkp] at h
    split at h
    · exact mayRaise_of_raise h ⟨State.keyIndexRange_of_keyIndex_none ‹_›, .inl ⟨x, rfl⟩⟩
    · exact absurd h finish_ne_takeFault
  case sknp x =>
    simp only [exec, execSknp] at h
    split at h
    · exact mayRaise_of_raise h ⟨State.keyIndexRange_of_keyIndex_none ‹_›, .inr ⟨x, rfl⟩⟩
    · exact absurd h finish_ne_takeFault
  case ldVxK => exact absurd (Host.Outcome.next.inj h) State.awaitKey_ne_takeFault
  case ldFVx x =>
    simp only [exec, execLdFVx] at h
    split at h
    · exact mayRaise_of_raise h ⟨State.fontDigitRange_of_fontDigit_none ‹_›, x, rfl⟩
    · exact absurd h finish_ne_takeFault
  case ldBVx x =>
    simp only [exec, execLdBVx] at h
    split at h
    · rename_i hfail
      exact mayRaise_of_raise h (mayRaise_of_write hfail (.inl ⟨x, rfl⟩))
    · exact absurd h finish_ne_takeFault
  case ldMemVx x =>
    simp only [exec, execLdMemVx] at h
    split at h
    · rename_i hfail
      exact mayRaise_of_raise h (mayRaise_of_write hfail (.inr ⟨x, rfl⟩))
    · exact absurd h finish_ne_takeFault
  case ldVxMem x =>
    simp only [exec, execLdVxMem] at h
    split at h
    · rename_i hfail
      exact mayRaise_of_raise h (mayRaise_of_read hfail (.inr ⟨x, rfl⟩))
    · exact absurd h finish_ne_takeFault
  all_goals exact absurd h finish_ne_takeFault

/-- An instruction that ends with a halt record, from a state with none, took that fault: its own address
and word are in the record (R115). -/
theorem exec_fault {i : Instr} {s t : State} {r : FaultRecord} (hs : s.fault = none)
    (h : exec i s = .next t) (hr : t.fault = some r) :
    t = s.takeFault r ∧ r.pc = s.pc - 2 ∧ r.opcode = some (encode i) := by
  cases exec_end h with
  | fault kind info ht => subst ht; cases hr; exact ⟨rfl, rfl, rfl⟩
  | stall _ _ ht => subst ht; rw [State.stalled_fault, hs] at hr; cases hr
  | done _ _ hf => rw [hf, hs] at hr; cases hr

/-- Settles O12: a record that is new is that of a fault the instruction took. -/
theorem faultsAreRaisedOnlyByTheirInstructions : Obligations.FaultsAreRaisedOnlyByTheirInstructions := by
  intro i s t r hs h hr
  obtain ⟨rfl, -, -⟩ := exec_fault hs h hr
  exact mayRaise_of_exec_takeFault h

/-! ### Precision -/

/-- A fault at the state's own PC writes the halt record and the result only (R115). -/
theorem State.takeFault_of_pc {s : State} {r : FaultRecord} (hpc : r.pc = s.pc) :
    s.takeFault r = { s with fault := some r, result := some (.fault r) } := by
  simp [State.takeFault, hpc]

/-- The encoding of an instruction that faults is the fetched word: the comparisons of registers, whose word
may have another low nibble under STRICT_LOW_NIBBLE = IGNORE, raise nothing (R65, R114). -/
theorem encode_of_decode_of_mayRaise {p : Policy} {op : Word} {i : Instr} {kind : FaultKind}
    (hd : decode p op = .ok i) (hraise : mayRaise p kind i) : encode i = op := by
  obtain ⟨-, hword | ⟨-, -, ⟨x, y, rfl⟩ | ⟨x, y, rfl⟩⟩⟩ := encodeOfDecodeIsTheWord p op i hd
  · exact hword
  all_goals
    unfold mayRaise at hraise
    split at hraise <;> simp at hraise

/-- Settles O10: the Step's own two faults are taken at PC with what the fetch gave, and an instruction's
fault takes back the fetch's advance and holds the fetched word. -/
theorem faultsArePrecise : Obligations.FaultsArePrecise := by
  intro s t r hs h hr
  cases coreStep_end h with
  | fetchFault hfetch ht =>
    subst ht; cases hr
    exact ⟨State.takeFault_of_pc rfl, rfl, hfetch.symm⟩
  | unknown op hfetch _ ht =>
    subst ht; cases hr
    exact ⟨State.takeFault_of_pc (s := s) rfl, rfl, hfetch.symm⟩
  | exec op i hfetch hd hexec =>
    obtain ⟨rfl, hpc, hopcode⟩ := exec_fault (s := s.advance) hs hexec hr
    have hraise : mayRaise s.policy r.kind i := mayRaise_of_exec_takeFault (s := s.advance) hexec
    have hword : encode i = op := encode_of_decode_of_mayRaise hd hraise
    have hpc0 : r.pc = s.pc := by simpa using hpc
    exact ⟨State.takeFault_of_pc (s := s) hpc0, hpc0, by rw [hopcode, hword, hfetch]⟩

/-! ### The halted core -/

/-- A Load stores bytes and leaves the halt record alone (R57). -/
theorem State.load_fault {s t : State} {source : Option (List Byte)} (h : s.load source = .ok t) :
    t.fault = s.fault := by
  unfold State.load at h
  split at h
  · cases h
  · split at h <;> cases h
    exact State.storeBytes_fault ..

/-- Settles O8: `step_of_halted`, and the halt record after each of the host's operations. -/
theorem haltedCoreTakesNoStep : Obligations.HaltedCoreTakesNoStep := fun s _ hr =>
  ⟨step_of_halted hr, rfl, s.tickTimers_fault.trans hr, fun _ _ ht => (State.load_fault ht).trans hr⟩

end Sys2Proof.Machine
end

section
/-! The host's inputs: the ticks before a step, and the keys and the random byte (R123, R125, R126; log 3). -/

namespace Sys2Proof.Machine

/-! ### Ticks -/

theorem toNat_tickBy (n : Nat) (t : Byte) : (tickBy n t).toNat = t.toNat - n := by
  have := t.isLt
  simp only [tickBy, BitVec.toNat_ofNat]
  omega

/-- One tick takes 1 from a timer, and 0 stays 0 (R123). -/
theorem toNat_tickOnce (t : Byte) : (tickOnce t).toNat = t.toNat - 1 := by
  rw [← tickBy_zero (tickOnce t), ← tickBy_succ, toNat_tickBy]

/-- n calls of TickTimers move both timers by a tick of n. -/
theorem State.iterate_tickTimers (n : Nat) (s : State) :
    State.tickTimers^[n] s = { s with dt := tickBy n s.dt, st := tickBy n s.st } := by
  induction n generalizing s with
  | zero => simp [tickBy_zero]
  | succ n ih => simp [ih, State.tickTimers, tickBy_succ]

/-- Settles O23: the ticks before a step are `State.iterate_tickTimers` at the inputs' number of them. -/
theorem ticksAreRepeatedTickTimers : Obligations.TicksAreRepeatedTickTimers := fun s =>
  ⟨toNat_tickOnce s.dt, toNat_tickOnce s.st, rfl, (s.iterate_tickTimers s.inputs.ticks).symm⟩

/-! ### Keys and the random byte -/

/-- The observer of all but those inputs in which a state's own differ from others. -/
def Observer.ofSameInputs (s : State) (n : Inputs) : Observer where
  regs _ := True
  st   := True
  keys := n.keys = s.inputs.keys ∧ n.keyPick = s.inputs.keyPick
  rnd8 := n.rnd8 = s.inputs.rnd8

theorem alike_withInputs (s : State) (n : Inputs) :
    Alike (.ofSameInputs s n) s { s with inputs := n } where
  frame := ⟨s.v, s.st, n, rfl⟩
  regs _ _ := rfl
  st _ := rfl
  keys := id
  rnd8 := id

/-- Under other inputs, alike in those that it reads, an instruction ends alike but for the inputs. -/
theorem exec_withInputs {i : Instr} {s t u : State} {n : Inputs}
    (hkeys : (∃ x, i = .skp x) ∨ (∃ x, i = .sknp x) ∨ (∃ x, i = .ldVxK x) →
      n.keys = s.inputs.keys ∧ n.keyPick = s.inputs.keyPick)
    (hrnd : (∃ x nn, i = .rnd x nn) → n.rnd8 = s.inputs.rnd8)
    (h : exec i s = .next t) (hu : exec i { s with inputs := n } = .next u) :
    u = { t with inputs := n } := by
  have sees : (Observer.ofSameInputs s n).SeesReadsOf s.policy i := ⟨fun _ _ => trivial, hkeys, hrnd⟩
  have halike := exec_alike_next (alike_withInputs s n) sees h hu
  obtain ⟨-, -, hinputs, -⟩ := exec_env hu
  have hframe := halike.eq_frame
  rwa [State.v_ext fun r => halike.regs r trivial, halike.st trivial, hinputs] at hframe

/-- Settles O55: `exec_withInputs`, where the instruction reads no input that differs. -/
theorem externalInputsHaveOnlyTheirReaders : Obligations.ExternalInputsHaveOnlyTheirReaders := by
  refine ⟨fun i s t u keys keyPick hskp hsknp hwait => exec_withInputs ?_ fun _ => rfl,
    fun i s t u rnd8 hrnd => exec_withInputs (fun _ => ⟨rfl, rfl⟩) ?_⟩
  · rintro (⟨x, hi⟩ | ⟨x, hi⟩ | ⟨x, hi⟩)
    · exact absurd hi (hskp x)
    · exact absurd hi (hsknp x)
    · exact absurd hi (hwait x)
  · rintro ⟨x, nn, hi⟩
    exact absurd hi (hrnd x nn)

end Sys2Proof.Machine
end

section
/-! Reset, and a run that has ended (R38, R131, R135). -/

namespace Sys2Proof.Machine

/-! ### Reset -/

/-- An unlisted byte outside the glyph range reads as 0 (R45). -/
theorem resetByte_outside {z : Sizes} {p : Policy} {a : Nat}
    (h : a < z.fontBase ∨ z.fontBase + p.fontTable.length ≤ a) : resetByte z p a = 0 := by
  obtain hbelow | habove := h
  · exact if_neg hbelow.not_ge
  · have hlen : p.fontTable.length ≤ a - z.fontBase := by omega
    simp [resetByte, hlen]

/-- No register is other than 0 after Reset (R38). -/
theorem State.resetWith_getV (z : Sizes) (p : Policy) (r : Reg) : (State.resetWith z p).getV r = 0 :=
  Vector.getElem_replicate r.isLt

/-- A PROG_BASE of 16 bits is the PC after Reset (R131; log 5). -/
theorem State.toNat_resetWith_pc {z : Sizes} (p : Policy) (h : z.progBase < 65536) :
    (State.resetWith z p).pc.toNat = z.progBase :=
  Nat.mod_eq_of_lt h

/-- Every call-stack slot is 0 after Reset (R38). -/
theorem State.resetWith_slot {z : Sizes} (p : Policy) {j : Nat} (h : j < z.stackDepth) :
    (State.resetWith z p).stack[j]? = some 0 :=
  List.getElem?_replicate_of_lt h

/-- Settles O21: the host's Reset is `State.resetWith` at the state's own parameters but for the inputs and
their counter, which none of the reset values reads. -/
theorem resetGivesTheResetValues : Obligations.ResetGivesTheResetValues := by
  unfold Obligations.ResetGivesTheResetValues
  intro hasResetValues
  have hreset (z : Sizes) (p : Policy) : hasResetValues z p (State.resetWith z p) :=
    ⟨State.resetWith_getV z p, rfl, State.toNat_resetWith_pc p, List.length_replicate,
      fun _ => State.resetWith_slot p, rfl, rfl, rfl, rfl, fun _ => resetByte_glyph,
      fun _ => resetByte_outside, pixelAt_clearFB⟩
  exact ⟨fun s => hreset s.sizes s.policy, hreset .default .default, rfl⟩

/-! ### The end of a run -/

/-- A jump to its own address takes back the fetch's advance (R76, R135). -/
theorem exec_jp_self {s : State} {nnn : Addr} (hpc : nnn.zeroExtend 16 = s.pc) :
    exec (.jp nnn) s.advance = .next (s.completed false) := by
  simp only [exec, execJp, finish, hpc]
  rfl

/-- A core that fetches a jump to its own address only completes (R135). -/
theorem coreStep_jp_self {s : State} {nnn : Addr} (hfetch : s.fetch = some (encode (.jp nnn)))
    (hpc : nnn.zeroExtend 16 = s.pc) : coreStep s = .next (s.completed false) := by
  rw [coreStep_of_decode hfetch (decodeOfEncodeIsTheInstruction _ (.jp nnn) rfl), exec_jp_self hpc]

/-- Settles O56: the ticks, the returned value and the draw leave the halt record, PC and the fetched word,
so the self-jump is fetched before the step and after it. -/
theorem endedRunKeepsJumpingToItself : Obligations.EndedRunKeepsJumpingToItself := by
  intro s ⟨hfault, nnn, hfetch, hpc⟩
  have hcore : coreStep s.applyTicks = .next (s.applyTicks.completed false) :=
    coreStep_jp_self (s.applyTicks_fetch.trans hfetch) hpc
  exact ⟨_, step_of_coreStep hfault hcore, ⟨hfault, nnn, hfetch, hpc⟩, rfl⟩

end Sys2Proof.Machine
end
